-- ==== Sys2Proof/Word.lean ====
section
/-! DEFINITION. The word, bit-string and text types of the block (00_scope.md rules R9, R13, R14). -/

namespace Sys2Proof

/-- One instruction word, exactly 32 bits (R9 `WORD_WIDTH`, R70). Bit 31 is the most significant (R12). -/
abbrev Word := BitVec 32

/-- A bit string, most significant bit first (R13). -/
abbrev Bits := List Bool

/-- A finite sequence of characters: a line, a token or a rendered text (R14). Log entry 9. -/
abbrev Text := List Char

end Sys2Proof
end

