-- ==== Sys2Proof/Machine/Bits.lean ====
section
/-! DEFINITION. Bit strings, fields and integers (00_scope.md rules R12, R13; 20_memory.md rules R52, R53). -/

namespace Sys2Proof

/-- `bin_N(v)`: the `N`-bit string of `v`, most significant bit first, zero-padded on the left (R13, R53). -/
def bin : Nat → Nat → Bits
  | 0, _ => []
  | n + 1, v => v.testBit n :: bin n v

/-- `zeros(N)` (R13). -/
def zeros (n : Nat) : Bits := List.replicate n false

/-- `uint(bits)`: the unsigned value of a bit string (R13). -/
def uint (b : Bits) : Nat := b.foldl (fun acc x => 2 * acc + x.toNat) 0

/-- `sint_N` of an `N`-bit field whose unsigned value is `u` (R13). -/
def sint (n : Nat) (u : Nat) : Int := if 2 ^ (n - 1) ≤ u then (u : Int) - 2 ^ n else u

/-- `W[hi:lo]` read as an unsigned number, by its lowest bit and its width (R13). -/
def slice (w : Word) (lo width : Nat) : Nat := (w.extractLsb' lo width).toNat

/-- The word of a bit string of at most 32 bits, zero-padded at its low end (R70, R168). -/
def packWord (b : Bits) : Word := BitVec.ofNat 32 (uint (b ++ zeros (32 - b.length)))

end Sys2Proof
end

