-- ==== Sys2Proof/Config.lean ====
section
/-! DEFINITION. The configuration `CFG` of the block and the fixed constants (00_scope.md rules R9, R10). -/

namespace Sys2Proof

/-- `CFG` (10_state.md rule R26): set by the environment before a batch, read-only within it.
`isWs : Char → Bool` is held as the list of the characters for which it is true, so that a state is
plain data; every such function has such a list, since there are finitely many characters
(`Cfg.every_isWs_has_a_list` in Laws/Lexer.lean). DEDUCED, safe: log entry 7. -/
structure Cfg where
  /-- `none`: comment stripping is disabled (R163). -/
  commentMarker : Option Char
  /-- `true`: mnemonics and selectors are matched after `upper` (R164, R107). -/
  foldCase : Bool
  /-- The characters `c` with `isWs c = true`. -/
  whitespace : List Char
  deriving DecidableEq, Repr

/-- `WORD_WIDTH` (R9). -/
abbrev wordWidth : Nat := 32

/-- `OPCODE_WIDTH` (R9). -/
abbrev opcodeWidth : Nat := 4

/-- `HEX_DIGITS` (R9). -/
abbrev hexDigits : Nat := 8

/-- The open parameter `wordByteOrder` of a collaborator that stores words as bytes (20_memory.md rule
R55, 92 D13). No rule of the block reads it: it is an argument of `wordBytes` only. Log entry 15. -/
inductive ByteOrder where
  | mostSignificantFirst
  | leastSignificantFirst
  deriving DecidableEq, Repr

end Sys2Proof
end

