-- ==== Sys2Proof/Syntax.lean ====
section
/-! DEFINITION. The instructions of the CI-16 ISA, their operand types, and the records the block keeps
(10_state.md rules R21, R22, R28, R29; 41_operations.md rules R131 to R146; 60_exceptions.md rule R230). -/

namespace Sys2Proof

/-- The five operand types (R21, R100). -/
inductive OperandType where
  | register
  | ramAddress
  | lineNumber
  | immediate
  | bitwiseSelector
  deriving DecidableEq, Repr

/-- The 16 operations, in opcode order (R22). -/
inductive Op where
  | add | sub | grt | eql
  | jmp | rst | rrd | rcl
  | and | bor | xor | not
  | rld | rms | inv | cjp
  deriving DecidableEq, Repr

/-- A bitwise selector: one of the three restricted operations (R24, R107). -/
inductive Selector where
  | and
  | bor
  | xor
  deriving DecidableEq, Repr

/-- An operand value: a mathematical integer or a selector (R13, R79). Its range is the business of
`WellFormed`; an index out of range is a term here, and no instruction of the block holds one. -/
inductive Value where
  | reg (n : Nat)
  | ram (n : Nat)
  | line (n : Nat)
  | imm (v : Int)
  | sel (s : Selector)
  deriving DecidableEq, Repr

/-- OperationSpec: the immutable record of one operation (R16, R22). `op` names the row. -/
structure OperationSpec where
  op : Op
  mnemonic : Text
  opcode : BitVec 4
  schema : List OperandType
  deriving DecidableEq, Repr

/-- One instruction: an operation with its operand values, in schema order. One constructor per row of
spec/opcode_table.json. The spec gives the operands positions and no roles (91 N1). -/
inductive Instr where
  | add (r1 r2 r3 : Nat)
  | sub (r1 r2 r3 : Nat)
  | grt (r1 r2 r3 : Nat)
  | eql (r1 r2 r3 : Nat)
  | jmp (ln : Nat)
  | rst (r1 : Nat) (imm : Int)
  | rrd (r1 r2 : Nat)
  | rcl
  | and (r1 r2 r3 : Nat)
  | bor (r1 r2 r3 : Nat)
  | xor (r1 r2 r3 : Nat)
  | not (r1 r2 : Nat)
  | rld (m r1 : Nat)
  | rms (m r1 : Nat)
  | inv (r1 r2 : Nat)
  | cjp (ln r1 r2 : Nat) (sel : Selector)
  deriving DecidableEq, Repr

/-- The eight encode-time reason tags (R28, R230; 90 C8: the two decode-only tags are not among them). -/
inductive Reason where
  | missingOperation
  | unknownOperation
  | arityMismatch
  | invalidRegister
  | invalidRamAddress
  | invalidLineNumber
  | invalidImmediate
  | invalidBitwiseSelector
  deriving DecidableEq, Repr

/-- The decoder's two failure tags (R190). `unknownOpcode` is kept as the contract has it and is never
returned (R192). -/
inductive DecodeFail where
  | unknownOpcode
  | unknownSelectorBits
  deriving DecidableEq, Repr

/-- One detected problem of one line (R28, R211). -/
structure Diagnostic where
  line : Nat
  token : Text
  reason : Reason
  expected : Option Nat
  actual : Option Nat
  deriving DecidableEq, Repr

/-- The result of one presented line (R29). -/
inductive LineResult where
  | valid (w : Word)
  | invalid
  deriving DecidableEq, Repr

end Sys2Proof
end

