-- ==== Sys2Proof/Machine/Tables.lean ====
section
/-! DEFINITION. The read-only tables (10_state.md rules R21 to R25), the registry lookups (41_operations.md
rule R130), the selector table (R24) and the configuration's defaults (00_scope.md rule R10). -/

namespace Sys2Proof

/-- A value domain: a range `[min, max)`, or the enumeration of selectors (R21). -/
inductive Domain where
  | range (min max : Int)
  | selectors
  deriving DecidableEq, Repr

/-- One entry of `OPERAND_TYPE_ROM` (R21). `lead` is the textual prefix, empty where there is none. -/
structure OperandTypeSpec where
  lead : Text
  width : Nat
  domain : Domain
  signed : Bool
  deriving DecidableEq, Repr

/-- `OPERAND_TYPE_ROM` (R21, R100). -/
def operandTypeRom : OperandType → OperandTypeSpec
  | .register => ⟨['r', 'g'], 4, .range 0 16, false⟩
  | .ramAddress => ⟨['r', 'm'], 8, .range 0 256, false⟩
  | .lineNumber => ⟨['l', 'n'], 16, .range 0 65536, false⟩
  | .immediate => ⟨[], 16, .range (-32768) 32768, true⟩
  | .bitwiseSelector => ⟨[], 4, .selectors, false⟩

/-- The bit width of an operand type (R57). -/
def operandWidth (t : OperandType) : Nat := (operandTypeRom t).width

/-- The OperationSpec of each operation (R22; one rule per row, R131 to R146). -/
def specOf : Op → OperationSpec
  | .add => ⟨.add, ['A', 'D', 'D'], 0b0000, [.register, .register, .register]⟩
  | .sub => ⟨.sub, ['S', 'U', 'B'], 0b0001, [.register, .register, .register]⟩
  | .grt => ⟨.grt, ['G', 'R', 'T'], 0b0010, [.register, .register, .register]⟩
  | .eql => ⟨.eql, ['E', 'Q', 'L'], 0b0011, [.register, .register, .register]⟩
  | .jmp => ⟨.jmp, ['J', 'M', 'P'], 0b0100, [.lineNumber]⟩
  | .rst => ⟨.rst, ['R', 'S', 'T'], 0b0101, [.register, .immediate]⟩
  | .rrd => ⟨.rrd, ['R', 'R', 'D'], 0b0110, [.register, .register]⟩
  | .rcl => ⟨.rcl, ['R', 'C', 'L'], 0b0111, []⟩
  | .and => ⟨.and, ['A', 'N', 'D'], 0b1000, [.register, .register, .register]⟩
  | .bor => ⟨.bor, ['B', 'O', 'R'], 0b1001, [.register, .register, .register]⟩
  | .xor => ⟨.xor, ['X', 'O', 'R'], 0b1010, [.register, .register, .register]⟩
  | .not => ⟨.not, ['N', 'O', 'T'], 0b1011, [.register, .register]⟩
  | .rld => ⟨.rld, ['R', 'L', 'D'], 0b1100, [.ramAddress, .register]⟩
  | .rms => ⟨.rms, ['R', 'M', 'S'], 0b1101, [.ramAddress, .register]⟩
  | .inv => ⟨.inv, ['I', 'N', 'V'], 0b1110, [.register, .register]⟩
  | .cjp => ⟨.cjp, ['C', 'J', 'P'], 0b1111, [.lineNumber, .register, .register, .bitwiseSelector]⟩

/-- `OPERATION_ROM`: the 16 entries, entry `k` at opcode `k` (R22). -/
def operationRom : List OperationSpec :=
  [.add, .sub, .grt, .eql, .jmp, .rst, .rrd, .rcl,
   .and, .bor, .xor, .not, .rld, .rms, .inv, .cjp].map specOf

/-- `upper(s)`: `a`–`z` to `A`–`Z`, every other character unchanged (R14). -/
def upper (s : Text) : Text :=
  s.map fun c => if 'a' ≤ c ∧ c ≤ 'z' then Char.ofNat (c.toNat - 32) else c

/-- The key a mnemonic or selector token is matched by (R107, R130, R164). -/
def matchKey (cfg : Cfg) (m : Text) : Text := if cfg.foldCase then upper m else m

/-- `LOOKUP(m)`, the `MNEMONIC_CAM`: a search of `OPERATION_ROM`, never a second table (R23, R130). -/
def lookup (cfg : Cfg) (m : Text) : Option OperationSpec :=
  operationRom.find? fun spec => spec.mnemonic == matchKey cfg m

/-- `LOOKUP_BY_OPCODE(b)` (R23, R130). `none` is `NotFound`, which no 4-bit value gives. -/
def lookupByOpcode (b : BitVec 4) : Option OperationSpec := operationRom[b.toNat]?

/-- The operation a selector names (R107). -/
def selectorOp : Selector → Op
  | .and => .and
  | .bor => .bor
  | .xor => .xor

/-- The restriction of the operations to the three selectors (R24). -/
def selectorOfOp (op : Op) : Option Selector :=
  [Selector.and, .bor, .xor].find? fun sel => selectorOp sel == op

/-- `SELECTOR_LUT`: the operation whose opcode is the field, restricted to AND, BOR and XOR (R24). -/
def selectorLut (f : BitVec 4) : Option Selector :=
  (lookupByOpcode f).bind fun spec => selectorOfOp spec.op

/-- The default configuration (00_scope.md rule R10; 92 D1, D2, D3). -/
def defaultCfg : Cfg where
  commentMarker := none
  foldCase := false
  whitespace := ['\u0009', '\u000a', '\u000b', '\u000c', '\u000d', '\u0020']

/-- `cfg.isWs(c)` (R10, R162). -/
def Cfg.isWs (cfg : Cfg) (c : Char) : Bool := cfg.whitespace.contains c

end Sys2Proof
end

