-- ==== Sys2Proof/Machine/Operands.lean ====
section
/-! DEFINITION. The operand types at work: token grammar, validation LUT, field encoding and decoding, and
rendering (40_operand_types.md; 30_encoding.md rule R79; 43_decoder.md rules R193, R195). -/

namespace Sys2Proof

/-- An ASCII digit `0`–`9` (R14, R101; 92 D4). -/
def isDigit (c : Char) : Bool := decide ('0' ≤ c ∧ c ≤ '9')

/-- `digits(s)`: non-empty, every character an ASCII digit (R101). -/
def digits (s : Text) : Bool := !s.isEmpty && s.all isDigit

/-- `dec(s)`: the base-10 value; leading zeros change nothing (R101). -/
def dec (s : Text) : Nat := s.foldl (fun acc c => 10 * acc + (c.toNat - 48)) 0

/-- The range test of a type's domain, on integers, before any width is imposed (R21, R110). -/
def inRange (t : OperandType) (v : Int) : Bool :=
  match (operandTypeRom t).domain with
  | .range lo hi => decide (lo ≤ v ∧ v < hi)
  | .selectors => false

/-- The number a prefixed token names, if it names one of its type (R102). -/
def prefixedNumber (t : OperandType) (tok : Text) : Option Nat :=
  if (operandTypeRom t).lead.isPrefixOf tok then
    let rest := tok.drop 2
    if digits rest && inRange t (dec rest) then some (dec rest) else none
  else none

/-- The integer of an optionally signed decimal token, before its range test (R106). -/
def signedDecimal (tok : Text) : Option Int :=
  match tok with
  | [] => none
  | c :: rest =>
    if (c == '+' || c == '-') && digits rest then
      some (if c = '-' then -(dec rest : Int) else dec rest)
    else if digits tok then some (dec tok)
    else none

/-- The value of an Immediate token (R106). -/
def immediateNumber (tok : Text) : Option Int :=
  (signedDecimal tok).filter (inRange .immediate)

/-- The selector a token names: the restricted operation whose registry mnemonic is the token's key (R107). -/
def selectorOfToken (cfg : Cfg) (tok : Text) : Option Selector :=
  [Selector.and, .bor, .xor].find? fun sel => (specOf (selectorOp sel)).mnemonic == matchKey cfg tok

/-- The operand value a token denotes in a position of type `t`, if it is valid there (R102 to R107). The
type is the position's, never the spelling's (R109). -/
def operandValue (cfg : Cfg) (t : OperandType) (tok : Text) : Option Value :=
  match t with
  | .register => (prefixedNumber .register tok).map .reg
  | .ramAddress => (prefixedNumber .ramAddress tok).map .ram
  | .lineNumber => (prefixedNumber .lineNumber tok).map .line
  | .immediate => (immediateNumber tok).map .imm
  | .bitwiseSelector => (selectorOfToken cfg tok).map .sel

/-- The operand type a value is of. -/
def Value.type : Value → OperandType
  | .reg _ => .register
  | .ram _ => .ramAddress
  | .line _ => .lineNumber
  | .imm _ => .immediate
  | .sel _ => .bitwiseSelector

/-- The failure reason of an operand type (R108). -/
def reasonOf : OperandType → Reason
  | .register => .invalidRegister
  | .ramAddress => .invalidRamAddress
  | .lineNumber => .invalidLineNumber
  | .immediate => .invalidImmediate
  | .bitwiseSelector => .invalidBitwiseSelector

/-- The field of an operand value (R79): unsigned, two's complement, or the selector's own opcode. -/
def fieldBits : Value → Bits
  | .reg n => bin (operandWidth .register) n
  | .ram n => bin (operandWidth .ramAddress) n
  | .line n => bin (operandWidth .lineNumber) n
  | .imm v => bin (operandWidth .immediate) (v % 2 ^ operandWidth .immediate).toNat
  | .sel s => bin (operandWidth .bitwiseSelector) (specOf (selectorOp s)).opcode.toNat

/-- `validate(t, tok)`, the validation LUT (R100). -/
def validate (cfg : Cfg) (t : OperandType) (tok : Text) : Except Reason Bits :=
  match operandValue cfg t tok with
  | some v => .ok (fieldBits v)
  | none => .error (reasonOf t)

/-- The value of a field of type `t` whose unsigned value is `f` (R79, R191, R193). Only a selector field
can have none (R194). -/
def fieldValue (t : OperandType) (f : Nat) : Option Value :=
  match t with
  | .register => some (.reg f)
  | .ramAddress => some (.ram f)
  | .lineNumber => some (.line f)
  | .immediate => some (.imm (sint (operandWidth .immediate) f))
  | .bitwiseSelector => (selectorLut (BitVec.ofNat 4 f)).map .sel

/-- The ASCII digit of a number below 10. -/
def digitChar (n : Nat) : Char := Char.ofNat (48 + n)

/-- Decimal digits, by fuel: `n + 1` is fuel enough for `n`. -/
def decimalWith : Nat → Nat → Text → Text
  | 0, _, acc => acc
  | fuel + 1, n, acc =>
    if n < 10 then digitChar n :: acc else decimalWith fuel (n / 10) (digitChar (n % 10) :: acc)

/-- `decimal(v)`: base 10, no leading zeros, `0` for zero (R195). -/
def decimal (n : Nat) : Text := decimalWith (n + 1) n []

/-- `renderOp` (R195): the type's textual lead and the decimal, a signed decimal, or the selector's name. -/
def renderOperand : Value → Text
  | .reg n => (operandTypeRom .register).lead ++ decimal n
  | .ram n => (operandTypeRom .ramAddress).lead ++ decimal n
  | .line n => (operandTypeRom .lineNumber).lead ++ decimal n
  | .imm v => (if v < 0 then ['-'] else []) ++ decimal v.natAbs
  | .sel s => (specOf (selectorOp s)).mnemonic

/-- The operand texts, each after one U+0020 space (R195, 92 D7). -/
def renderOperands : List Value → Text
  | [] => []
  | v :: vs => ' ' :: renderOperand v ++ renderOperands vs

/-- `render(spec, vals)`: the canonical text (R195). -/
def render (spec : OperationSpec) (vals : List Value) : Text := spec.mnemonic ++ renderOperands vals

/-- The operation of an instruction. -/
def Instr.op : Instr → Op
  | .add _ _ _ => .add
  | .sub _ _ _ => .sub
  | .grt _ _ _ => .grt
  | .eql _ _ _ => .eql
  | .jmp _ => .jmp
  | .rst _ _ => .rst
  | .rrd _ _ => .rrd
  | .rcl => .rcl
  | .and _ _ _ => .and
  | .bor _ _ _ => .bor
  | .xor _ _ _ => .xor
  | .not _ _ => .not
  | .rld _ _ => .rld
  | .rms _ _ => .rms
  | .inv _ _ => .inv
  | .cjp _ _ _ _ => .cjp

/-- The operand values of an instruction, in schema order (R16, R22). -/
def Instr.operands : Instr → List Value
  | .add a b c => [.reg a, .reg b, .reg c]
  | .sub a b c => [.reg a, .reg b, .reg c]
  | .grt a b c => [.reg a, .reg b, .reg c]
  | .eql a b c => [.reg a, .reg b, .reg c]
  | .jmp l => [.line l]
  | .rst a v => [.reg a, .imm v]
  | .rrd a b => [.reg a, .reg b]
  | .rcl => []
  | .and a b c => [.reg a, .reg b, .reg c]
  | .bor a b c => [.reg a, .reg b, .reg c]
  | .xor a b c => [.reg a, .reg b, .reg c]
  | .not a b => [.reg a, .reg b]
  | .rld m a => [.ram m, .reg a]
  | .rms m a => [.ram m, .reg a]
  | .inv a b => [.reg a, .reg b]
  | .cjp l a b s => [.line l, .reg a, .reg b, .sel s]

/-- The instruction of an operation and its operand values; none where they do not fit the schema. -/
def buildInstr : Op → List Value → Option Instr
  | .add, [.reg a, .reg b, .reg c] => some (.add a b c)
  | .sub, [.reg a, .reg b, .reg c] => some (.sub a b c)
  | .grt, [.reg a, .reg b, .reg c] => some (.grt a b c)
  | .eql, [.reg a, .reg b, .reg c] => some (.eql a b c)
  | .jmp, [.line l] => some (.jmp l)
  | .rst, [.reg a, .imm v] => some (.rst a v)
  | .rrd, [.reg a, .reg b] => some (.rrd a b)
  | .rcl, [] => some .rcl
  | .and, [.reg a, .reg b, .reg c] => some (.and a b c)
  | .bor, [.reg a, .reg b, .reg c] => some (.bor a b c)
  | .xor, [.reg a, .reg b, .reg c] => some (.xor a b c)
  | .not, [.reg a, .reg b] => some (.not a b)
  | .rld, [.ram m, .reg a] => some (.rld m a)
  | .rms, [.ram m, .reg a] => some (.rms m a)
  | .inv, [.reg a, .reg b] => some (.inv a b)
  | .cjp, [.line l, .reg a, .reg b, .sel s] => some (.cjp l a b s)
  | _, _ => none

end Sys2Proof
end

