-- ==== Sys2Proof/Machine/Formats.lean ====
section
/-! DEFINITION. The seven formats as the field tables give them (30_encoding.md rules R72 to R78), each field
placed at its lowest bit, and the seven text shapes (43_decoder.md rule R195). The meanings are written over
these; the encoder of Decode.lean packs bit strings instead (R70), and the two are stated to agree. -/

namespace Sys2Proof.Machine

/-- The value `v` with its lowest bit at bit `lo` of the word: `v << lo`. -/
def place (lo v : Nat) : Word := BitVec.ofNat 32 v <<< lo

/-- Format `RRR` (R72). -/
def wordRRR (opcode r1 r2 r3 : Nat) : Word := place 28 opcode ||| place 24 r1 ||| place 20 r2 ||| place 16 r3

/-- Format `L` (R73). -/
def wordL (opcode ln : Nat) : Word := place 28 opcode ||| place 12 ln

/-- Format `LRRS` (R74). It fills the word. -/
def wordLRRS (opcode ln r1 r2 sel : Nat) : Word :=
  place 28 opcode ||| place 12 ln ||| place 8 r1 ||| place 4 r2 ||| place 0 sel

/-- Format `RI` (R75): the immediate as `imm mod 2^16`. -/
def wordRI (opcode r1 : Nat) (imm : Int) : Word :=
  place 28 opcode ||| place 24 r1 ||| place 8 (imm % 65536).toNat

/-- Format `RR` (R76). -/
def wordRR (opcode r1 r2 : Nat) : Word := place 28 opcode ||| place 24 r1 ||| place 20 r2

/-- Format `N` (R77). -/
def wordN (opcode : Nat) : Word := place 28 opcode

/-- Format `MR` (R78). -/
def wordMR (opcode m r1 : Nat) : Word := place 28 opcode ||| place 20 m ||| place 16 r1

/-- The selector field: the opcode of the named operation (R74, R107). -/
def selectorCode : Selector → Nat
  | .and => 8
  | .bor => 9
  | .xor => 10

/-- The selector's text (R195). -/
def selectorText : Selector → Text
  | .and => ['A', 'N', 'D']
  | .bor => ['B', 'O', 'R']
  | .xor => ['X', 'O', 'R']

/-- ` rg<n>`. -/
def spaceReg (n : Nat) : Text := [' ', 'r', 'g'] ++ decimal n

/-- ` rm<n>`. -/
def spaceRam (n : Nat) : Text := [' ', 'r', 'm'] ++ decimal n

/-- ` ln<n>`. -/
def spaceLine (n : Nat) : Text := [' ', 'l', 'n'] ++ decimal n

/-- ` <signed decimal>`: `-` only for a negative value, never `+` (R195). -/
def spaceImm (v : Int) : Text := if v < 0 then [' ', '-'] ++ decimal v.natAbs else [' '] ++ decimal v.natAbs

/-- `<mnemonic> rg<a> rg<b> rg<c>`. -/
def textRRR (m : Text) (a b c : Nat) : Text := m ++ spaceReg a ++ spaceReg b ++ spaceReg c

/-- `<mnemonic> ln<a>`. -/
def textL (m : Text) (a : Nat) : Text := m ++ spaceLine a

/-- `<mnemonic> ln<a> rg<b> rg<c> <selector>`. -/
def textLRRS (m : Text) (a b c : Nat) (s : Selector) : Text :=
  m ++ spaceLine a ++ spaceReg b ++ spaceReg c ++ ' ' :: selectorText s

/-- `<mnemonic> rg<a> <imm>`. -/
def textRI (m : Text) (a : Nat) (v : Int) : Text := m ++ spaceReg a ++ spaceImm v

/-- `<mnemonic> rg<a> rg<b>`. -/
def textRR (m : Text) (a b : Nat) : Text := m ++ spaceReg a ++ spaceReg b

/-- `<mnemonic>` alone. -/
def textN (m : Text) : Text := m

/-- `<mnemonic> rm<m> rg<a>`. -/
def textMR (m : Text) (ram a : Nat) : Text := m ++ spaceRam ram ++ spaceReg a

end Sys2Proof.Machine
end

