-- ==== Sys2Proof/WellFormed.lean ====
section
/-! DEFINITION. Which instruction terms are instructions: every operand lies in the domain of its type
(10_state.md rule R21, 40_operand_types.md rules R103 to R107). -/

namespace Sys2Proof

/-- `[0, 16)`, R103. -/
abbrev registerOk (n : Nat) : Prop := n < 16

/-- `[0, 256)`, R104. -/
abbrev ramAddressOk (n : Nat) : Prop := n < 256

/-- `[0, 65536)`, R105. -/
abbrev lineNumberOk (n : Nat) : Prop := n < 65536

/-- `[-32768, 32768)`, R106. -/
abbrev immediateOk (v : Int) : Prop := -32768 ≤ v ∧ v < 32768

/-- A value lies in its type's domain. A selector is always one of the three (R107). -/
abbrev Value.InDomain : Value → Prop
  | .reg n => registerOk n
  | .ram n => ramAddressOk n
  | .line n => lineNumberOk n
  | .imm v => immediateOk v
  | .sel _ => True

/-- Every operand of the instruction lies in its domain. -/
def Instr.wellFormed : Instr → Bool
  | .add a b c => decide (registerOk a ∧ registerOk b ∧ registerOk c)
  | .sub a b c => decide (registerOk a ∧ registerOk b ∧ registerOk c)
  | .grt a b c => decide (registerOk a ∧ registerOk b ∧ registerOk c)
  | .eql a b c => decide (registerOk a ∧ registerOk b ∧ registerOk c)
  | .jmp l => decide (lineNumberOk l)
  | .rst a v => decide (registerOk a ∧ immediateOk v)
  | .rrd a b => decide (registerOk a ∧ registerOk b)
  | .rcl => true
  | .and a b c => decide (registerOk a ∧ registerOk b ∧ registerOk c)
  | .bor a b c => decide (registerOk a ∧ registerOk b ∧ registerOk c)
  | .xor a b c => decide (registerOk a ∧ registerOk b ∧ registerOk c)
  | .not a b => decide (registerOk a ∧ registerOk b)
  | .rld m a => decide (ramAddressOk m ∧ registerOk a)
  | .rms m a => decide (ramAddressOk m ∧ registerOk a)
  | .inv a b => decide (registerOk a ∧ registerOk b)
  | .cjp l a b _ => decide (lineNumberOk l ∧ registerOk a ∧ registerOk b)

/-- The instruction is well formed. -/
abbrev Instr.WellFormed (i : Instr) : Prop := i.wellFormed = true

end Sys2Proof
end

