-- ==== Sys2Proof/Decode.lean ====
section
/-! DEFINITION. The decoder, total on all 2^32 words and rejecting by name (43_decoder.md rules R190 to R195),
and after it the encoder of an instruction (30_encoding.md rules R70, R71, R79). -/

namespace Sys2Proof

/-- The operand stage of `decodeFields` (R191): `top` bits of the word are not consumed yet, so the next
field is `W[top-1 : top-width]`. The bits left at the end are padding and are not read (R83, 92 D8). -/
def decodeOperands (w : Word) : List OperandType → Nat → Except DecodeFail (List Value)
  | [], _ => .ok []
  | t :: ts, top =>
    match fieldValue t (slice w (top - operandWidth t) (operandWidth t)) with
    | none => .error .unknownSelectorBits
    | some v =>
      match decodeOperands w ts (top - operandWidth t) with
      | .ok vs => .ok (v :: vs)
      | .error e => .error e

/-- The opcode field `W[31:28]` (R52). -/
def opcodeField (w : Word) : BitVec 4 := w.extractLsb' 28 4

/-- `decodeFields(W)` (R191). -/
def decodeFields (w : Word) : Except DecodeFail (OperationSpec × List Value) :=
  match lookupByOpcode (opcodeField w) with
  | none => .error .unknownOpcode
  | some spec =>
    match decodeOperands w spec.schema 28 with
    | .ok vals => .ok (spec, vals)
    | .error e => .error e

/-- `DECODE_WORD(W)` as a pure function: the canonical text or a failure tag (R190, R191). -/
def decodeWord (w : Word) : Except DecodeFail Text :=
  match decodeFields w with
  | .ok (spec, vals) => .ok (render spec vals)
  | .error e => .error e

/-- The instruction of a word. Values that fit no schema have no operation; the decoder makes none
(`decodeInstr_ok` in Laws/Decode.lean). -/
def decodeInstr (w : Word) : Except DecodeFail Instr :=
  match decodeFields w with
  | .ok (spec, vals) =>
    match buildInstr spec.op vals with
    | some i => .ok i
    | none => .error .unknownOpcode
  | .error e => .error e

/-- The word of an instruction: opcode, fields in schema order, zero padding (R70). -/
def encodeInstr (i : Instr) : Word :=
  packWord (bin opcodeWidth (specOf i.op).opcode.toNat ++ i.operands.flatMap fieldBits)

/-- The number of padding bits of an operation's words (R70, R71). -/
def paddingWidth (op : Op) : Nat :=
  wordWidth - opcodeWidth - ((specOf op).schema.map operandWidth).sum

/-- The instruction the decoder reads from a row's bits, numbered as spec/opcode_table.json numbers them;
the bits from `nbits` up are 0. A word is one 32-bit value and is never split into bytes (R55, R56). -/
def decodeTableWord (nbits w : Nat) : Option Instr :=
  match decodeInstr (BitVec.ofNat 32 (w % 2 ^ nbits)) with
  | .ok i => some i
  | .error _ => none

end Sys2Proof
end

