-- ==== Sys2Proof/Machine/Encoder.lean ====
section
/-! DEFINITION. The pure encoder: from one line of text and its number to a word or diagnostics
(42_encoder.md rules R160 to R170), and the canonical form of a line (43_decoder.md rule R197). -/

namespace Sys2Proof

/-- `tokens(line)`: the maximal runs of non-whitespace characters, in order (R14, R162). -/
def tokens (isWs : Char → Bool) : Text → List Text
  | [] => []
  | c :: cs =>
    if isWs c then tokens isWs cs
    else
      match cs, tokens isWs cs with
      | d :: _, t :: ts => if isWs d then [c] :: t :: ts else (c :: t) :: ts
      | _, _ => [[c]]

/-- Comment stripping (R163): from the first token that starts with the marker on, all is discarded. -/
def stripComment (marker : Option Char) (toks : List Text) : List Text :=
  match marker with
  | none => toks
  | some c => toks.takeWhile fun t => t.head? != some c

/-- Step 1 of R161: tokenize, then strip a comment. -/
def lineTokens (cfg : Cfg) (line : Text) : List Text :=
  stripComment cfg.commentMarker (tokens cfg.isWs line)

/-- Steps 1 to 3 of R161: tokens, mnemonic, arity. The first failing step gives the line's one diagnostic
(R165, R166, R232; its fields: R211). -/
def frontEnd (cfg : Cfg) (line : Text) (n : Nat) : Except Diagnostic (OperationSpec × List Text) :=
  match lineTokens cfg line with
  | [] => .error ⟨n, [], .missingOperation, none, none⟩
  | m :: ops =>
    match lookup cfg m with
    | none => .error ⟨n, m, .unknownOperation, none, none⟩
    | some spec =>
      if ops.length = spec.schema.length then .ok (spec, ops)
      else .error ⟨n, m, .arityMismatch, some spec.schema.length, some ops.length⟩

/-- Step 4 of R161, the failures: one diagnostic per failing operand, in position order (R167). -/
def operandDiagnostics (cfg : Cfg) (n : Nat) : List OperandType → List Text → List Diagnostic
  | t :: ts, tok :: toks =>
    match validate cfg t tok with
    | .ok _ => operandDiagnostics cfg n ts toks
    | .error r => ⟨n, tok, r, none, none⟩ :: operandDiagnostics cfg n ts toks
  | _, _ => []

/-- Step 4 of R161, the bits: the fields of the valid operands, concatenated in schema order. -/
def operandBits (cfg : Cfg) : List OperandType → List Text → Bits
  | t :: ts, tok :: toks =>
    match validate cfg t tok with
    | .ok b => b ++ operandBits cfg ts toks
    | .error _ => operandBits cfg ts toks
  | _, _ => []

/-- `encode(cfg, line, n)`: total, and pure (R160, R161, R169). -/
def encode (cfg : Cfg) (line : Text) (n : Nat) : LineResult × List Diagnostic :=
  match frontEnd cfg line n with
  | .error d => (.invalid, [d])
  | .ok (spec, ops) =>
    match operandDiagnostics cfg n spec.schema ops with
    | [] => (.valid (packWord (bin opcodeWidth spec.opcode.toNat ++ operandBits cfg spec.schema ops)), [])
    | d :: ds => (.invalid, d :: ds)

/-- The values of a list of operand tokens, if every one is valid in its position. -/
def operandValues (cfg : Cfg) : List OperandType → List Text → Option (List Value)
  | [], [] => some []
  | t :: ts, tok :: toks =>
    match operandValue cfg t tok, operandValues cfg ts toks with
    | some v, some vs => some (v :: vs)
    | _, _ => none
  | _, _ => none

/-- The instruction a line denotes, if the line is valid: its operation and the values `encode` validated
(R16, R197). It depends on no line number (R112). -/
def lineInstr (cfg : Cfg) (line : Text) : Option Instr :=
  match frontEnd cfg line 0 with
  | .error _ => none
  | .ok (spec, ops) => (operandValues cfg spec.schema ops).bind (buildInstr spec.op)

/-- The canonical text of an instruction (R195). -/
def instrText (i : Instr) : Text := render (specOf i.op) i.operands

/-- `canon(L)`, for a line that `encode` accepts (R197). -/
def canonicalLine (cfg : Cfg) (line : Text) : Option Text := (lineInstr cfg line).map instrText

end Sys2Proof
end

