-- ==== Sys2Proof/Machine/State.lean ====
section
/-! DEFINITION. The state of the block (10_state.md rules R20, R26 to R29), its reset value (R36), and the
operations the environment can issue with the values they return. -/

namespace Sys2Proof.Machine

/-- What the environment can ask of the block. The port operations are those of 00_scope.md rule R8; the
others are the pure core (R160), the batch loops (R214, R216), the read of the outputs (R215) and the
environment's own start of a batch (70_reset_and_hazards.md rule R261). Log entry 2. -/
inductive Request where
  /-- `ENCODE_LINE(line)` (R171). -/
  | encodeLine (line : Text)
  /-- `DECODE_WORD(W)` (R190). -/
  | decodeWord (w : Word)
  /-- `RESET_BATCH()` (R260). -/
  | resetBatch
  /-- `LOOKUP(m)` (R130). -/
  | lookup (m : Text)
  /-- `LOOKUP_BY_OPCODE(b)` (R130). -/
  | lookupByOpcode (b : BitVec 4)
  /-- The pure `encode(cfg, line, n)` called directly, with the caller's own configuration and line number (R160,
  R266). DEDUCED, safe: `cfg` is the call's own input and may differ from `CFG`: log entry 24. -/
  | encode (cfg : Cfg) (line : Text) (n : Nat)
  /-- `ENCODE_BATCH(lines)` (R214). -/
  | encodeBatch (lines : List Text)
  /-- `DECODE_BATCH(words)` (R216). -/
  | decodeBatch (words : List Word)
  /-- The environment reads `RESULTS`, `DIAG_LOG`, `ANY_INVALID` and the transport texts (R215). -/
  | readBatch
  /-- The environment sets `CFG` and then issues `RESET_BATCH` (R261 steps 2 and 3, R262). Log entry 8. -/
  | newBatch (cfg : Cfg)
  deriving DecidableEq, Repr

/-- What a batch shows the environment (R214, R215). -/
structure BatchOutputs where
  results : List LineResult
  diagnostics : List Diagnostic
  anyInvalid : Bool
  /-- `hex8` of each Valid entry; an Invalid entry has no word. -/
  hex : List (Option Text)
  deriving DecidableEq, Repr

/-- What a served operation returns. `RESET_BATCH` and `newBatch` return nothing. -/
inductive Answer where
  /-- Of `ENCODE_LINE` (R160, R171). -/
  | line (r : LineResult)
  /-- Of `DECODE_WORD`: `Ok text` (R190). -/
  | text (t : Text)
  /-- Of `DECODE_WORD`: `Fail tag` (R190). -/
  | decodeFailed (tag : DecodeFail)
  /-- Of `LOOKUP` and `LOOKUP_BY_OPCODE`; `none` is `NotFound` (R130). -/
  | spec (found : Option OperationSpec)
  /-- Of the pure `encode` (R160). -/
  | encoded (r : LineResult) (ds : List Diagnostic)
  /-- Of a read of the batch's outputs (R215). -/
  | batch (out : BatchOutputs)
  deriving DecidableEq, Repr

/-- The state of the block. The read-only tables are constants (log entry 6), with the accessors below. -/
structure State where
  /-- `CFG` (R26). -/
  cfg : Cfg
  /-- `LINE_CTR` (R27). -/
  lineCtr : Nat
  /-- `DIAG_LOG`, oldest first (R28). -/
  diagLog : List Diagnostic
  /-- `RESULTS`, in line order (R29). -/
  results : List LineResult
  /-- The model's own: the operations issued and not yet served, in issue order (R61). Log entry 2. -/
  requests : List Request
  /-- The model's own: the values returned so far, oldest first. Log entry 3. -/
  answers : List Answer
  deriving DecidableEq, Repr

/-- The state after start-up (R36): `LINE_CTR` 0, both lists empty, `CFG` at its defaults (log entry 13),
nothing issued and nothing answered (log entries 2, 3). -/
def State.reset : State where
  cfg := defaultCfg
  lineCtr := 0
  diagLog := []
  results := []
  requests := []
  answers := []

/-- `OPERAND_TYPE_ROM` of the block: the same in every state (R21, R25). -/
abbrev State.operandTypeRom (_ : State) : OperandType → OperandTypeSpec := Sys2Proof.operandTypeRom

/-- `OPERATION_ROM` of the block: the same in every state (R22, R25). -/
abbrev State.operationRom (_ : State) : List OperationSpec := Sys2Proof.operationRom

/-- `MNEMONIC_CAM` of the block: `OPERATION_ROM` searched under the state's `CFG` (R23). -/
abbrev State.mnemonicCam (s : State) : Text → Option OperationSpec := Sys2Proof.lookup s.cfg

/-- `SELECTOR_LUT` of the block: the same in every state (R24, R25). -/
abbrev State.selectorLut (_ : State) : BitVec 4 → Option Selector := Sys2Proof.selectorLut

/-- What stops the machine. The block has no traps (60_exceptions.md rule R235). -/
inductive Fault where
  /-- Raised by serving `DECODE_WORD`, if the opcode stage finds no operation. 93 asks for a fault "if it
  is ever reached"; all 16 opcodes are assigned (R81), so it never is. Safe. Log entry 12. -/
  | unknownOpcode
  deriving DecidableEq, Repr

/-- What the model has no meaning for. -/
inductive Refusal where
  /-- Raised by an arm of `exec` whose instruction has no meaning yet; there is none. Safe. -/
  | notModelled (mnemonic : String)
  deriving DecidableEq, Repr

/-- The outcome of one step of the block. -/
abbrev Outcome := Host.Outcome State Fault Refusal

end Sys2Proof.Machine
end

