-- ==== Sys2Proof/Machine/Flags.lean ====
section
/-! DEFINITION. The block has no flags or condition codes (10_state.md rule R35). Its one derived status
signal is `ANY_INVALID` (R30); the failure tags have numeric codes (60_exceptions.md rule R230). -/

namespace Sys2Proof.Machine

/-- A line result is `Invalid`. -/
def isInvalid : LineResult → Bool
  | .valid _ => false
  | .invalid => true

/-- `ANY_INVALID`: some entry of `RESULTS` is `Invalid` (R30). Derived, never stored. -/
def State.anyInvalid (s : State) : Bool := s.results.any isInvalid

/-- The 4-bit code of an encode-time tag (R230, 92 D10). -/
def reasonCode : Reason → BitVec 4
  | .missingOperation => 0
  | .unknownOperation => 1
  | .arityMismatch => 2
  | .invalidRegister => 3
  | .invalidRamAddress => 4
  | .invalidLineNumber => 5
  | .invalidImmediate => 6
  | .invalidBitwiseSelector => 7

/-- The 4-bit code of a decode-time tag (R230, 92 D10). Codes 10 to 15 are unused. -/
def decodeFailCode : DecodeFail → BitVec 4
  | .unknownOpcode => 8
  | .unknownSelectorBits => 9

end Sys2Proof.Machine
end

