-- ==== Sys2Proof/Machine/Transport.lean ====
section
/-! DEFINITION. How a word leaves the block: the 8-digit hexadecimal text (20_memory.md rule R54) and, for a
collaborator that stores bytes, its four bytes in an order that collaborator chooses (R55). -/

namespace Sys2Proof

/-- `hexdigit(v)` (R54); `v` is a 4-bit value. -/
def hexDigit (v : BitVec 4) : Char :=
  (['0', '1', '2', '3', '4', '5', '6', '7', '8', '9', 'a', 'b', 'c', 'd', 'e', 'f'])[v.toNat]'v.isLt

/-- `hex8(W)`: 8 lowercase digits, most significant first, no prefix, leading zeros kept (R54). -/
def hex8 (w : Word) : Text := [7, 6, 5, 4, 3, 2, 1, 0].map fun i => hexDigit (w.extractLsb' (4 * i) 4)

/-- The four bytes of a word, at rising addresses, in the collaborator's order (R55, 92 D13). -/
def wordBytes (order : ByteOrder) (w : Word) : List (BitVec 8) :=
  match order with
  | .mostSignificantFirst => [3, 2, 1, 0].map fun i => w.extractLsb' (8 * i) 8
  | .leastSignificantFirst => [0, 1, 2, 3].map fun i => w.extractLsb' (8 * i) 8

end Sys2Proof
end

