-- ==== Sys2Proof/Machine/Ops.lean ====
section
/-! DEFINITION. The shared operations on the state: recording a line, the failure entry, answering, reset and
the batch loops (42_encoder.md rule R171; 60_exceptions.md rule R235; 70_reset_and_hazards.md rule R260;
44_diagnostics_batch.md rules R214 to R216). Each serves the operation at the head of `requests` and takes
it off the queue. -/

namespace Sys2Proof.Machine

/-- The operation in progress is done and returned `a`; the state of the block itself is as before. -/
def State.answer (s : State) (a : Answer) : State :=
  { s with requests := s.requests.tail, answers := s.answers ++ [a] }

/-- The last four lines of `ENCODE_LINE` as one transition: the counter, the diagnostics, the result entry
and the returned result (R171, R58). -/
def State.recordLine (s : State) (r : LineResult) (ds : List Diagnostic) : State :=
  { s with
    lineCtr := s.lineCtr + 1
    diagLog := s.diagLog ++ ds
    results := s.results ++ [r]
    requests := s.requests.tail
    answers := s.answers ++ [.line r] }

/-- `emit(W)`: the line's result is `Valid(W)`, with no diagnostics (R15, R168). -/
def State.emitWord (s : State) (w : Word) : State := s.recordLine (.valid w) []

/-- The failure entry, the block's whole "exception" (R235): the diagnostics, an `Invalid` entry and the
advance of `LINE_CTR`. No other state is saved, no control is transferred, and there is no return (R236). -/
def State.recordFailure (s : State) (ds : List Diagnostic) : State := s.recordLine .invalid ds

/-- `RESET_BATCH` on the batch state (R260). -/
def State.clearBatch (s : State) : State := { s with lineCtr := 0, diagLog := [], results := [] }

/-- `RESET_BATCH()` served (R260). It returns nothing. -/
def State.resetBatch (s : State) : State := { s.clearBatch with requests := s.requests.tail }

/-- The environment sets `CFG`, then `RESET_BATCH` (R261, R262). Log entry 8. -/
def State.newBatch (s : State) (cfg : Cfg) : State :=
  { s.clearBatch with cfg := cfg, requests := s.requests.tail }

/-- `ENCODE_BATCH(lines)` unrolled into its loop: `RESET_BATCH`, one `ENCODE_LINE` per line in order, and the
return of `(RESULTS, DIAG_LOG)` (R214). Log entry 11. -/
def State.startEncodeBatch (s : State) (lines : List Text) : State :=
  { s with requests := .resetBatch :: (lines.map .encodeLine ++ .readBatch :: s.requests.tail) }

/-- `DECODE_BATCH(words)` unrolled into its loop: one `DECODE_WORD` per word, in order (R216). Log entry 11. -/
def State.startDecodeBatch (s : State) (words : List Word) : State :=
  { s with requests := words.map .decodeWord ++ s.requests.tail }

/-- The transport text of a result: an Invalid entry has no word (R215). -/
def resultHex : LineResult → Option Text
  | .valid w => some (hex8 w)
  | .invalid => none

/-- What the environment reads of a batch (R215). -/
def State.batchOutputs (s : State) : BatchOutputs where
  results := s.results
  diagnostics := s.diagLog
  anyInvalid := s.anyInvalid
  hex := s.results.map resultHex

/-- The operation in progress is a `DECODE_WORD`. -/
def State.isDecoding (s : State) : Bool :=
  match s.requests with
  | .decodeWord _ :: _ => true
  | _ => false

/-- An instruction with word `w` and text `t` passes through the block. A `DECODE_WORD` in progress returns
the text and writes nothing (R190, R32); otherwise the instruction is a line's, and its word is emitted
(R168). `step` calls a meaning only inside `ENCODE_LINE` or `DECODE_WORD`. Log entries 1, 5. -/
def convert (w : Word) (t : Text) (s : State) : Outcome :=
  .next (if s.isDecoding then s.answer (.text t) else s.emitWord w)

end Sys2Proof.Machine
end

