-- ==== Sys2Proof/Machine/Jumps.lean ====
section
/-! DEFINITION. The meanings of the jumps JMP and CJP (41_operations.md rules R138, R139):
each one's word and text, passed through the block. What they do on the target CPU is out of scope (00_scope.md
rule R7). -/

namespace Sys2Proof.Machine

/-- `JMP ln<ln>`: opcode `0100`, R73 (R138). -/
def execJmp (ln : Nat) (s : State) : Outcome :=
  convert (wordL 0x4 ln) (textL ['J', 'M', 'P'] ln) s

/-- `CJP ln<ln> rg<r1> rg<r2> <sel>`: opcode `1111`, R74 (R139). -/
def execCjp (ln r1 r2 : Nat) (sel : Selector) (s : State) : Outcome :=
  convert (wordLRRS 0xF ln r1 r2 (selectorCode sel)) (textLRRS ['C', 'J', 'P'] ln r1 r2 sel) s

end Sys2Proof.Machine
end

