-- ==== Sys2Proof/Machine/RegisterOps.lean ====
section
/-! DEFINITION. The meanings of the register set, read and clear group RST, RRD, RCL (41_operations.md rules R140 to R142):
each one's word and text, passed through the block. What they do on the target CPU is out of scope (00_scope.md
rule R7). -/

namespace Sys2Proof.Machine

/-- `RST rg<r1> <imm>`: opcode `0101`, R75 (R140). -/
def execRst (r1 : Nat) (imm : Int) (s : State) : Outcome :=
  convert (wordRI 0x5 r1 imm) (textRI ['R', 'S', 'T'] r1 imm) s

/-- `RRD rg<r1> rg<r2>`: opcode `0110`, R76 (R141). -/
def execRrd (r1 r2 : Nat) (s : State) : Outcome :=
  convert (wordRR 0x6 r1 r2) (textRR ['R', 'R', 'D'] r1 r2) s

/-- `RCL`: opcode `0111`, R77 (R142). -/
def execRcl (s : State) : Outcome :=
  convert (wordN 0x7) (textN ['R', 'C', 'L']) s

end Sys2Proof.Machine
end

