-- ==== Sys2Proof/Machine/ThreeRegister.lean ====
section
/-! DEFINITION. The meanings of the three-register group ADD, SUB, GRT, EQL, AND, BOR, XOR (41_operations.md rules R131 to R137):
each one's word and text, passed through the block. What they do on the target CPU is out of scope (00_scope.md
rule R7). -/

namespace Sys2Proof.Machine

/-- `ADD rg<r1> rg<r2> rg<r3>`: opcode `0000`, R72 (R131). -/
def execAdd (r1 r2 r3 : Nat) (s : State) : Outcome :=
  convert (wordRRR 0x0 r1 r2 r3) (textRRR ['A', 'D', 'D'] r1 r2 r3) s

/-- `SUB rg<r1> rg<r2> rg<r3>`: opcode `0001`, R72 (R132). -/
def execSub (r1 r2 r3 : Nat) (s : State) : Outcome :=
  convert (wordRRR 0x1 r1 r2 r3) (textRRR ['S', 'U', 'B'] r1 r2 r3) s

/-- `GRT rg<r1> rg<r2> rg<r3>`: opcode `0010`, R72 (R133). -/
def execGrt (r1 r2 r3 : Nat) (s : State) : Outcome :=
  convert (wordRRR 0x2 r1 r2 r3) (textRRR ['G', 'R', 'T'] r1 r2 r3) s

/-- `EQL rg<r1> rg<r2> rg<r3>`: opcode `0011`, R72 (R134). -/
def execEql (r1 r2 r3 : Nat) (s : State) : Outcome :=
  convert (wordRRR 0x3 r1 r2 r3) (textRRR ['E', 'Q', 'L'] r1 r2 r3) s

/-- `AND rg<r1> rg<r2> rg<r3>`: opcode `1000`, R72 (R135). -/
def execAnd (r1 r2 r3 : Nat) (s : State) : Outcome :=
  convert (wordRRR 0x8 r1 r2 r3) (textRRR ['A', 'N', 'D'] r1 r2 r3) s

/-- `BOR rg<r1> rg<r2> rg<r3>`: opcode `1001`, R72 (R136). -/
def execBor (r1 r2 r3 : Nat) (s : State) : Outcome :=
  convert (wordRRR 0x9 r1 r2 r3) (textRRR ['B', 'O', 'R'] r1 r2 r3) s

/-- `XOR rg<r1> rg<r2> rg<r3>`: opcode `1010`, R72 (R137). -/
def execXor (r1 r2 r3 : Nat) (s : State) : Outcome :=
  convert (wordRRR 0xA r1 r2 r3) (textRRR ['X', 'O', 'R'] r1 r2 r3) s

end Sys2Proof.Machine
end

