-- ==== Sys2Proof/Machine/UnaryAndRam.lean ====
section
/-! DEFINITION. The meanings of the bitwise unary group and RAM: NOT, RLD, RMS, INV (41_operations.md rules R143 to R146):
each one's word and text, passed through the block. What they do on the target CPU is out of scope (00_scope.md
rule R7). -/

namespace Sys2Proof.Machine

/-- `NOT rg<r1> rg<r2>`: opcode `1011`, R76 (R143). -/
def execNot (r1 r2 : Nat) (s : State) : Outcome :=
  convert (wordRR 0xB r1 r2) (textRR ['N', 'O', 'T'] r1 r2) s

/-- `RLD rm<m> rg<r1>`: opcode `1100`, R78 (R144). -/
def execRld (m r1 : Nat) (s : State) : Outcome :=
  convert (wordMR 0xC m r1) (textMR ['R', 'L', 'D'] m r1) s

/-- `RMS rm<m> rg<r1>`: opcode `1101`, R78 (R145). -/
def execRms (m r1 : Nat) (s : State) : Outcome :=
  convert (wordMR 0xD m r1) (textMR ['R', 'M', 'S'] m r1) s

/-- `INV rg<r1> rg<r2>`: opcode `1110`, R76 (R146). -/
def execInv (r1 r2 : Nat) (s : State) : Outcome :=
  convert (wordRR 0xE r1 r2) (textRR ['I', 'N', 'V'] r1 r2) s

end Sys2Proof.Machine
end

