-- ==== Sys2Proof/Machine/Dispatch.lean ====
section
/-! DEFINITION. One arm per instruction, each one direct call of its meaning. -/

namespace Sys2Proof.Machine

def exec (i : Instr) (s : State) : Host.Outcome State Fault Refusal :=
  match i with
  | .add r1 r2 r3 => Sys2Proof.Machine.execAdd r1 r2 r3 s
  | .sub r1 r2 r3 => Sys2Proof.Machine.execSub r1 r2 r3 s
  | .grt r1 r2 r3 => Sys2Proof.Machine.execGrt r1 r2 r3 s
  | .eql r1 r2 r3 => Sys2Proof.Machine.execEql r1 r2 r3 s
  | .jmp ln => Sys2Proof.Machine.execJmp ln s
  | .rst r1 imm => Sys2Proof.Machine.execRst r1 imm s
  | .rrd r1 r2 => Sys2Proof.Machine.execRrd r1 r2 s
  | .rcl => Sys2Proof.Machine.execRcl s
  | .and r1 r2 r3 => Sys2Proof.Machine.execAnd r1 r2 r3 s
  | .bor r1 r2 r3 => Sys2Proof.Machine.execBor r1 r2 r3 s
  | .xor r1 r2 r3 => Sys2Proof.Machine.execXor r1 r2 r3 s
  | .not r1 r2 => Sys2Proof.Machine.execNot r1 r2 s
  | .rld m r1 => Sys2Proof.Machine.execRld m r1 s
  | .rms m r1 => Sys2Proof.Machine.execRms m r1 s
  | .inv r1 r2 => Sys2Proof.Machine.execInv r1 r2 s
  | .cjp ln r1 r2 sel => Sys2Proof.Machine.execCjp ln r1 r2 sel s

end Sys2Proof.Machine
end

