-- ==== Sys2Proof/Machine/Ports.lean ====
section
/-! DEFINITION. How the block serves each operation (00_scope.md rule R8), and how a word is presented to it. -/

namespace Sys2Proof.Machine

/-- `ENCODE_LINE(line)` (R171). A line that denotes an instruction has that instruction's meaning; any other
line has its diagnostics recorded, and nothing stops the batch (R169). The line number is `LINE_CTR` after its
increment (R27). -/
def serveEncodeLine (line : Text) (s : State) : Outcome :=
  match lineInstr s.cfg line with
  | some i => exec i s
  | none => .next (s.recordFailure (encode s.cfg line (s.lineCtr + 1)).2)

/-- `DECODE_WORD(W)` (R190, R191). A failure is a returned value and changes no state (R235); the unreachable
`UnknownOpcode` is a fault (93; log entry 12). -/
def serveDecodeWord (w : Word) (s : State) : Outcome :=
  match decodeInstr w with
  | .ok i => exec i s
  | .error .unknownSelectorBits => .next (s.answer (.decodeFailed .unknownSelectorBits))
  | .error .unknownOpcode => .fault .unknownOpcode

/-- The operation at the head of the queue, served. A direct `encode` reads the configuration it is called with
and not the block's `CFG` (R160; log entry 24). -/
def serve (r : Request) (s : State) : Outcome :=
  match r with
  | .encodeLine line => serveEncodeLine line s
  | .decodeWord w => serveDecodeWord w s
  | .resetBatch => .next s.resetBatch
  | .lookup m => .next (s.answer (.spec (lookup s.cfg m)))
  | .lookupByOpcode b => .next (s.answer (.spec (lookupByOpcode b)))
  | .encode cfg line n => .next (s.answer (.encoded (encode cfg line n).1 (encode cfg line n).2))
  | .encodeBatch lines => .next (s.startEncodeBatch lines)
  | .decodeBatch words => .next (s.startDecodeBatch words)
  | .readBatch => .next (s.answer (.batch s.batchOutputs))
  | .newBatch cfg => .next (s.newBatch cfg)

/-- With nothing issued, nothing happens: the block acts only when an operation is issued (R61, R237). Log
entry 4. -/
def idle (s : State) : Outcome := .next s

/-- `DECODE_WORD` of the word is the next operation: the environment presents it in front of whatever else
is issued. Log entry 14. -/
def presentWord (s : State) (w : Word) : State := { s with requests := .decodeWord w :: s.requests }

end Sys2Proof.Machine
end

