-- ==== Sys2Proof/Machine/Step.lean ====
section
/-! DEFINITION. One step of the block: the next issued operation, completely (00_scope.md rule R8; 20_memory.md
rules R58, R61). -/

namespace Sys2Proof.Machine

/-- One step. -/
def step (s : State) : Host.Outcome State Fault Refusal :=
  match s.requests with
  | [] => idle s
  | r :: _ => serve r s

/-- The state in which the next step decodes and runs the instruction whose bits are `w`, numbered as
spec/opcode_table.json numbers them; the bits from `nbits` up are 0. Log entry 14. -/
def State.withFetchWord (s : State) (nbits w : Nat) : State :=
  presentWord s (BitVec.ofNat 32 (w % 2 ^ nbits))

end Sys2Proof.Machine
end

