-- ==== Sys2Proof/Safety.lean ====
section
/-! DEFINITION. What claims about the block are stated in: the invariant of the batch state, and the
conditions on a configuration under which rendered text reads back. -/

namespace Sys2Proof.Machine

/-- The batch-state invariant of 44_diagnostics_batch.md rule R213, clauses (a) to (d). -/
structure State.BatchInv (s : State) : Prop where
  /-- (a) One result per presented line. -/
  count : s.results.length = s.lineCtr
  /-- (b) Line `k`'s result is `Invalid` exactly when the log holds a diagnostic of line `k`. -/
  invalid_iff : ∀ k, 1 ≤ k → k ≤ s.lineCtr →
    (s.results[k - 1]? = some .invalid ↔ ∃ d ∈ s.diagLog, d.line = k)
  /-- (c) The line numbers of the log do not decrease, and each lies in `[1, LINE_CTR]`. -/
  ordered : (s.diagLog.map Diagnostic.line).Pairwise (· ≤ ·)
  inRange : ∀ d ∈ s.diagLog, 1 ≤ d.line ∧ d.line ≤ s.lineCtr
  /-- (d) Every emitted word decodes. -/
  decodes : ∀ w, .valid w ∈ s.results → ∃ t, decodeWord w = .ok t

/-- The characters that begin a rendered token (43_decoder.md rule R199). -/
def tokenStarts : List Char :=
  ['r', 'l', '-', '0', '1', '2', '3', '4', '5', '6', '7', '8', '9',
   'A', 'B', 'C', 'E', 'G', 'I', 'J', 'N', 'R', 'S', 'X']

/-- The characters other than U+0020 that a rendered text contains. -/
def tokenChars : List Char := tokenStarts ++ ['g', 'm', 'n', 'D', 'L', 'M', 'O', 'P', 'Q', 'T', 'U', 'V']

/-- The conditions on `CFG` of 43_decoder.md rule R199: U+0020 is whitespace, no other character of a
rendered text is, and the comment marker, if any, begins no rendered token. -/
structure ReadsRenderedText (cfg : Cfg) : Prop where
  space : cfg.isWs ' ' = true
  others : ∀ c ∈ tokenChars, cfg.isWs c = false
  marker : ∀ c, cfg.commentMarker = some c → c ∉ tokenStarts

/-- A word with its padding bits cleared, the padding being that of its own opcode's format (R199). -/
def clearPadding (w : Word) : Word :=
  match lookupByOpcode (opcodeField w) with
  | some spec => (w >>> paddingWidth spec.op) <<< paddingWidth spec.op
  | none => w

/-- `s` after one more line, with its result and its diagnostics: the four effects of R171 written out, and
the model's own queue and answers (log entries 2, 3). -/
def afterLine (s : State) (r : LineResult) (ds : List Diagnostic) : State where
  cfg := s.cfg
  lineCtr := s.lineCtr + 1
  diagLog := s.diagLog ++ ds
  results := s.results ++ [r]
  requests := s.requests.tail
  answers := s.answers ++ [.line r]

/-- `s` after an operation that returns `a` and writes none of the block's state. -/
def afterAnswer (s : State) (a : Answer) : State where
  cfg := s.cfg
  lineCtr := s.lineCtr
  diagLog := s.diagLog
  results := s.results
  requests := s.requests.tail
  answers := s.answers ++ [a]

/-- What an instruction with word `w` and text `t` does to `s`: all of the next state, so what it leaves
unchanged too. Inside `DECODE_WORD` the text is returned and nothing is written; otherwise the line's result
is `Valid w`. -/
def converted (s : State) (w : Word) (t : Text) : State :=
  if s.isDecoding then afterAnswer s (.text t) else afterLine s (.valid w) []

/-- The answer of a `DECODE_WORD` (R190). -/
def decodeAnswer (w : Word) : Answer :=
  match decodeWord w with
  | .ok t => .text t
  | .error e => .decodeFailed e

/-- The diagnostics of a batch: those of line 1, then those of line 2, and so on (R61, R233). -/
def batchDiagnostics (cfg : Cfg) (lines : List Text) : List Diagnostic :=
  (lines.mapIdx fun k line => (encode cfg line (k + 1)).2).flatten

/-- The results of a batch, in line order; a result does not depend on the line number (R29, R61). -/
def batchResults (cfg : Cfg) (lines : List Text) : List LineResult := lines.map fun line => (encode cfg line 0).1

/-- `s` after `ENCODE_BATCH(lines)`, nothing of an earlier batch left (R214, R262). -/
def afterBatch (s : State) (lines : List Text) : State where
  cfg := s.cfg
  lineCtr := lines.length
  diagLog := batchDiagnostics s.cfg lines
  results := batchResults s.cfg lines
  requests := s.requests.tail
  answers := s.answers ++ (batchResults s.cfg lines).map .line ++
    [.batch
      { results := batchResults s.cfg lines
        diagnostics := batchDiagnostics s.cfg lines
        anyInvalid := decide (LineResult.invalid ∈ batchResults s.cfg lines)
        hex := (batchResults s.cfg lines).map fun r =>
          match r with
          | .valid w => some (hex8 w)
          | .invalid => none }]

/-- A reason of the first three steps of the encoder (R232). -/
def isLineReason : Reason → Bool
  | .missingOperation => true
  | .unknownOperation => true
  | .arityMismatch => true
  | .invalidRegister => false
  | .invalidRamAddress => false
  | .invalidLineNumber => false
  | .invalidImmediate => false
  | .invalidBitwiseSelector => false

/-- The field tables of 30_encoding.md rules R72 to R78, one row `(hi, lo, value)` per field, the padding
rows among them. -/
def fieldTable : Instr → List (Nat × Nat × Nat)
  | .add a b c => [(31, 28, 0b0000), (27, 24, a), (23, 20, b), (19, 16, c), (15, 0, 0)]
  | .sub a b c => [(31, 28, 0b0001), (27, 24, a), (23, 20, b), (19, 16, c), (15, 0, 0)]
  | .grt a b c => [(31, 28, 0b0010), (27, 24, a), (23, 20, b), (19, 16, c), (15, 0, 0)]
  | .eql a b c => [(31, 28, 0b0011), (27, 24, a), (23, 20, b), (19, 16, c), (15, 0, 0)]
  | .and a b c => [(31, 28, 0b1000), (27, 24, a), (23, 20, b), (19, 16, c), (15, 0, 0)]
  | .bor a b c => [(31, 28, 0b1001), (27, 24, a), (23, 20, b), (19, 16, c), (15, 0, 0)]
  | .xor a b c => [(31, 28, 0b1010), (27, 24, a), (23, 20, b), (19, 16, c), (15, 0, 0)]
  | .jmp l => [(31, 28, 0b0100), (27, 12, l), (11, 0, 0)]
  | .cjp l a b .and => [(31, 28, 0b1111), (27, 12, l), (11, 8, a), (7, 4, b), (3, 0, 0b1000)]
  | .cjp l a b .bor => [(31, 28, 0b1111), (27, 12, l), (11, 8, a), (7, 4, b), (3, 0, 0b1001)]
  | .cjp l a b .xor => [(31, 28, 0b1111), (27, 12, l), (11, 8, a), (7, 4, b), (3, 0, 0b1010)]
  | .rst a v => [(31, 28, 0b0101), (27, 24, a), (23, 8, (v % 2 ^ 16).toNat), (7, 0, 0)]
  | .rrd a b => [(31, 28, 0b0110), (27, 24, a), (23, 20, b), (19, 0, 0)]
  | .not a b => [(31, 28, 0b1011), (27, 24, a), (23, 20, b), (19, 0, 0)]
  | .inv a b => [(31, 28, 0b1110), (27, 24, a), (23, 20, b), (19, 0, 0)]
  | .rcl => [(31, 28, 0b0111), (27, 0, 0)]
  | .rld m a => [(31, 28, 0b1100), (27, 20, m), (19, 16, a), (15, 0, 0)]
  | .rms m a => [(31, 28, 0b1101), (27, 20, m), (19, 16, a), (15, 0, 0)]

end Sys2Proof.Machine
end

