-- ==== Sys2Proof/Certificates/Slice0/Obligations.lean ====
section
/-! DEFINITION. The statements about the block, for the provers. `requests` and `answers` are the model's own
fields (log entries 2, 3); every statement about `step` or `exec` speaks of them too. -/

open Sys2Proof Sys2Proof.Machine

/-! ### The word -/

/-- Decoding the word of a well-formed instruction gives the instruction back, with every operand at every
value its domain admits (30_encoding.md R70, R79; 43_decoder.md R191). -/
def Obligations.DecodeInvertsEncodeInstr : Prop :=
  ∀ i : Instr, i.WellFormed → decodeInstr (encodeInstr i) = .ok i

/-- Every word that decodes is, its padding cleared, the word of the instruction it decodes to, and that
instruction is well formed (30_encoding.md R83, R84; 43_decoder.md R199). -/
def Obligations.EncodeInvertsDecodeInstr : Prop :=
  ∀ (w : Word) (i : Instr), decodeInstr w = .ok i → i.WellFormed ∧ encodeInstr i = clearPadding w

/-- R72 to R78: each format's schema, the operations that use it, and its field table row by row (the
padding rows among them) in the word of every well-formed instruction. -/
def Obligations.FormatsPlaceTheFields : Prop :=
  (∀ op ∈ [Op.add, .sub, .grt, .eql, .and, .bor, .xor],
    (specOf op).schema = [.register, .register, .register]) ∧
  (specOf .jmp).schema = [.lineNumber] ∧
  (specOf .cjp).schema = [.lineNumber, .register, .register, .bitwiseSelector] ∧
  (specOf .rst).schema = [.register, .immediate] ∧
  (∀ op ∈ [Op.rrd, .not, .inv], (specOf op).schema = [.register, .register]) ∧
  (specOf .rcl).schema = [] ∧
  (∀ op ∈ [Op.rld, .rms], (specOf op).schema = [.ramAddress, .register]) ∧
  ∀ i : Instr, i.WellFormed → ∀ row ∈ fieldTable i,
    slice (encodeInstr i) row.2.1 (row.1 - row.2.1 + 1) = row.2.2

/-- The encoder writes the padding as zero; the decoder does not look at it; a word whose padding is not zero
is never produced and does not survive decode-then-encode (30_encoding.md R83; that the decoder ignores it is
the spec's own decision, 92 D8: log entry 19). -/
def Obligations.PaddingIsZeroedAndIgnored : Prop :=
  (∀ w : Word, clearPadding w = w ↔
    ∀ op, (specOf op).opcode = opcodeField w → slice w 0 (paddingWidth op) = 0) ∧
  (∀ cfg line n w ds, encode cfg line n = (.valid w, ds) → clearPadding w = w) ∧
  (∀ w : Word, decodeWord (clearPadding w) = decodeWord w) ∧
  (∀ cfg, ReadsRenderedText cfg → ∀ w t n, decodeWord w = .ok t → clearPadding w ≠ w →
    encode cfg t n ≠ (.valid w, []))

/-- The words that do not decode are the CJP words whose selector is none of the three, and their failure
is `UnknownSelectorBits`: `UnknownOpcode` is never returned (30_encoding.md R81, R82; 43_decoder.md R192,
R194; the spec marks these as derived). -/
def Obligations.DecodeFailsExactlyOnBadSelectors : Prop :=
  ∀ (w : Word) (e : DecodeFail), decodeWord w = .error e ↔
    e = .unknownSelectorBits ∧ opcodeField w = 0xF#4 ∧ slice w 0 4 ∉ [8, 9, 10]

/-- Words with zero padding that decode to one text are one word; without that condition, for every operation
with padding (all but CJP), two different words of it decode to one text (43_decoder.md R200, partly marked
derived; that the decoder ignores the padding is the spec's own decision, 92 D8: log entry 19). -/
def Obligations.DecodeIsInjectiveOnZeroPadding : Prop :=
  (∀ (w w' : Word) (t : Text), clearPadding w = w → clearPadding w' = w' →
    decodeWord w = .ok t → decodeWord w' = .ok t → w = w') ∧
  ∀ op, op ≠ Op.cjp → ∃ (w w' : Word) (t : Text), w ≠ w' ∧ opcodeField w = (specOf op).opcode ∧
    opcodeField w' = (specOf op).opcode ∧ decodeWord w = .ok t ∧ decodeWord w' = .ok t

/-- Words written out from the field tables and vectors of 95_test_vectors.md decode to the instructions
they stand for, one for each operation. -/
def Obligations.WrittenOutWordsDecode : Prop :=
  decodeInstr 0b00000001001000110000000000000000#32 = .ok (.add 1 2 3) ∧
  decodeInstr 0b00011111000001110000000000000000#32 = .ok (.sub 15 0 7) ∧
  decodeInstr 0b00100000000000000000000000000000#32 = .ok (.grt 0 0 0) ∧
  decodeInstr 0b00111111111111110000000000000000#32 = .ok (.eql 15 15 15) ∧
  decodeInstr 0b01000001001000110100000000000000#32 = .ok (.jmp 4660) ∧
  decodeInstr 0b01010100111111111111111000000000#32 = .ok (.rst 4 (-2)) ∧
  decodeInstr 0b01100001001000000000000000000000#32 = .ok (.rrd 1 2) ∧
  decodeInstr 0b01110000000000000000000000000000#32 = .ok .rcl ∧
  decodeInstr 0b10000001001000110000000000000000#32 = .ok (.and 1 2 3) ∧
  decodeInstr 0b10010100010101100000000000000000#32 = .ok (.bor 4 5 6) ∧
  decodeInstr 0b10100111100010010000000000000000#32 = .ok (.xor 7 8 9) ∧
  decodeInstr 0b10110011010000000000000000000000#32 = .ok (.not 3 4) ∧
  decodeInstr 0b11000000000100100000000000000000#32 = .ok (.rld 1 2) ∧
  decodeInstr 0b11010001001001010000000000000000#32 = .ok (.rms 18 5) ∧
  decodeInstr 0b11101001101000000000000000000000#32 = .ok (.inv 9 10) ∧
  decodeInstr 0b11110000000000001010001000111001#32 = .ok (.cjp 10 2 3 .bor)

/-- R54: `hex8` is the eight digits `hexdigit(W[4i+3:4i])` for `i` from 7 down to 0, always exactly 8
characters of the lowercase alphabet, and two words with one rendering are one word. -/
def Obligations.Hex8RendersTheWord : Prop :=
  (∀ w : Word, hex8 w = [7, 6, 5, 4, 3, 2, 1, 0].map fun i =>
    ("0123456789abcdef".toList)[slice w (4 * i) 4]?.getD ' ') ∧
  (∀ w : Word, (hex8 w).length = 8 ∧ ∀ c ∈ hex8 w, c ∈ "0123456789abcdef".toList) ∧
  (∀ w w' : Word, hex8 w = hex8 w' → w = w') ∧
  hex8 0x70000000#32 = "70000000".toList ∧ hex8 0x01230000#32 = "01230000".toList

/-! ### The registry and the validation LUT -/

/-- `LOOKUP` finds exactly the row whose mnemonic is the key, `LOOKUP_BY_OPCODE` is total, and each inverts
the other's index (41_operations.md R130, 10_state.md R23; the last clause is marked derived there). -/
def Obligations.RegistryLookupIsBidirectional : Prop :=
  (∀ cfg m spec, lookup cfg m = some spec ↔
    spec ∈ operationRom ∧ spec.mnemonic = if cfg.foldCase then upper m else m) ∧
  (∀ b : BitVec 4, ∃ spec, lookupByOpcode b = some spec ∧ operationRom[b.toNat]? = some spec ∧
    spec.opcode = b) ∧
  (∀ cfg, ∀ spec ∈ operationRom,
    lookup cfg spec.mnemonic = some spec ∧ lookupByOpcode spec.opcode = some spec)

/-- `digits` is a non-empty run of ASCII digits, and `dec` reads base 10, with leading zeros allowed and ignored
and any number of digits (40_operand_types.md R101; ASCII digits only, and any number of them, are the spec's
own decision, 92 D4: log entry 16). -/
def Obligations.DecimalLiteralsReadInBaseTen : Prop :=
  (∀ s : Text, digits s = true ↔ s ≠ [] ∧ ∀ c ∈ s, '0' ≤ c ∧ c ≤ '9') ∧
  (∀ n k : Nat, digits (List.replicate k '0' ++ Nat.toDigits 10 n) = true ∧
    dec (List.replicate k '0' ++ Nat.toDigits 10 n) = n) ∧
  (∀ (s : Text) (c : Char), dec (s ++ [c]) = 10 * dec s + (c.toNat - '0'.toNat)) ∧
  dec "007".toList = 7 ∧ dec "0".toList = 0

/-- A prefixed token is accepted exactly when it is its type's two-letter lead, then one or more ASCII digits
whose value is below `2^N`; its bits are `bin_N` of the value; any other token fails with the type's reason,
whatever `CFG.foldCase` says (40_operand_types.md R102; the grammar of the digits and the exact lead are the
spec's own decisions, 92 D1, D4: log entry 16). -/
def Obligations.PrefixedOperandsValidate : Prop :=
  ∀ (cfg : Cfg) (tok : Text), ∀ row ∈ [(OperandType.register, ['r', 'g'], 4, Reason.invalidRegister),
      (.ramAddress, ['r', 'm'], 8, .invalidRamAddress), (.lineNumber, ['l', 'n'], 16, .invalidLineNumber)],
    (∀ b : Bits, validate cfg row.1 tok = .ok b ↔ ∃ ds : Text, tok = row.2.1 ++ ds ∧ ds ≠ [] ∧
      (∀ c ∈ ds, '0' ≤ c ∧ c ≤ '9') ∧ dec ds < 2 ^ row.2.2.1 ∧ b = bin row.2.2.1 (dec ds)) ∧
    ((∀ b : Bits, validate cfg row.1 tok ≠ .ok b) → validate cfg row.1 tok = .error row.2.2.2)

/-- An Immediate token is accepted exactly when it is one or more ASCII digits after at most one sign, with a
value in [-32768, 32768); its bits are `bin_16(v mod 2^16)`; any other token is InvalidImmediate
(40_operand_types.md R106; the grammar is the spec's own decision, 92 D5: log entry 16). -/
def Obligations.ImmediateOperandsValidate : Prop :=
  ∀ (cfg : Cfg) (tok : Text),
    (∀ b : Bits, validate cfg .immediate tok = .ok b ↔ ∃ (ds : Text) (v : Int), ds ≠ [] ∧
      (∀ c ∈ ds, '0' ≤ c ∧ c ≤ '9') ∧
      ((tok = ds ∧ v = dec ds) ∨ (tok = '+' :: ds ∧ v = dec ds) ∨ (tok = '-' :: ds ∧ v = -(dec ds : Int))) ∧
      -32768 ≤ v ∧ v < 32768 ∧ b = bin 16 (v % 65536).toNat) ∧
    ((∀ b : Bits, validate cfg .immediate tok ≠ .ok b) → validate cfg .immediate tok = .error .invalidImmediate)

/-- R107: a BitwiseSelector token is one of the three restricted mnemonics, after `upper` when `foldCase` is
set, and its bits are that operation's own opcode, read from `OPERATION_ROM` by `LOOKUP`; every other string
fails, NOT, INV and every other mnemonic among them. -/
def Obligations.SelectorOperandsValidate : Prop :=
  ∀ (cfg : Cfg) (tok : Text),
    let key := if cfg.foldCase then upper tok else tok
    validate cfg .bitwiseSelector tok =
      (if key = "AND".toList then .ok [true, false, false, false]
      else if key = "BOR".toList then .ok [true, false, false, true]
      else if key = "XOR".toList then .ok [true, false, true, false]
      else .error .invalidBitwiseSelector) ∧
    ∀ b, validate cfg .bitwiseSelector tok = .ok b →
      ∃ spec, lookup cfg tok = some spec ∧ spec.op ∈ [Op.and, .bor, .xor] ∧ b = bin 4 spec.opcode.toNat

/-- R108, with the outcomes of R100: the validation LUT answers a bit string of exactly the type's width, or
the type's own reason, and nothing else. -/
def Obligations.ValidationAnswersWidthOrReason : Prop :=
  ∀ (cfg : Cfg) (tok : Text), ∀ row ∈ [(OperandType.register, 4, Reason.invalidRegister),
      (.ramAddress, 8, .invalidRamAddress), (.lineNumber, 16, .invalidLineNumber),
      (.immediate, 16, .invalidImmediate), (.bitwiseSelector, 4, .invalidBitwiseSelector)],
    (∃ b : Bits, validate cfg row.1 tok = .ok b ∧ b.length = row.2.1) ∨
      validate cfg row.1 tok = .error row.2.2

/-- The conversions are bijections: `bin_N` from `[0, 2^N)` onto the strings of `N` bits, and
`v mod 2^16` from the immediates onto `[0, 65536)` with inverse `sint_16` (40_operand_types.md R110, which
the spec marks as derived). -/
def Obligations.OperandConversionsAreBijective : Prop :=
  (∀ N v : Nat, v < 2 ^ N → (bin N v).length = N ∧ uint (bin N v) = v) ∧
  (∀ b : Bits, uint b < 2 ^ b.length ∧ bin b.length (uint b) = b) ∧
  (∀ v : Int, -32768 ≤ v → v < 32768 → sint 16 (uint (bin 16 (v % 65536).toNat)) = v) ∧
  (∀ u : Nat, u < 65536 → -32768 ≤ sint 16 u ∧ sint 16 u < 32768 ∧ (sint 16 u % 65536).toNat = u)

/-- The rendered decimal is the base-10 digit string without leading zeros (43_decoder.md R195; the
text layout is the spec's own decision, 92 D7: log entry 18), and reads back as its number. -/
def Obligations.RenderedNumbersAreBaseTen : Prop :=
  ∀ n : Nat, decimal n = Nat.toDigits 10 n ∧ dec (decimal n) = n ∧
    (n ≠ 0 → (decimal n).head? ≠ some '0')

/-! ### The encoder -/

/-- The tokens of a line are its maximal runs of non-whitespace characters, in order, and whitespace produces no
empty token; by default whitespace is the six ASCII characters (42_encoder.md R162; the default set is the
spec's own decision, 92 D2: log entry 13). -/
def Obligations.TokensAreMaximalRuns : Prop :=
  (∀ (ws : Char → Bool) (line : Text), ∀ t ∈ tokens ws line, t ≠ [] ∧ ∀ c ∈ t, ws c = false) ∧
  (∀ (ws : Char → Bool) (line : Text), (tokens ws line).flatten = line.filter fun c => !ws c) ∧
  (∀ (ws : Char → Bool) (t rest : Text) (c : Char), t ≠ [] → (∀ d ∈ t, ws d = false) → ws c = true →
    tokens ws (t ++ c :: rest) = t :: tokens ws rest ∧ tokens ws t = [t] ∧
      tokens ws (c :: rest) = tokens ws rest) ∧
  (∀ c : Char, defaultCfg.isWs c = true ↔ c.toNat ∈ [0x9, 0xA, 0xB, 0xC, 0xD, 0x20])

/-- Comment stripping keeps exactly the tokens before the first one that begins with the marker, and is off
when there is no marker (42_encoder.md R163). -/
def Obligations.CommentsAreCutAtTheirToken : Prop :=
  (∀ cfg line, cfg.commentMarker = none → lineTokens cfg line = tokens cfg.isWs line) ∧
  (∀ cfg line c, cfg.commentMarker = some c → ∃ cut, tokens cfg.isWs line = lineTokens cfg line ++ cut ∧
    (∀ t ∈ lineTokens cfg line, t.head? ≠ some c) ∧ ∀ t ∈ cut.head?, t.head? = some c) ∧
  (∀ cfg line c, cfg.commentMarker = some c → cfg.isWs c = true → lineTokens cfg line = tokens cfg.isWs line)

/-- A line with no token gives `MissingOperation`, and an unrecognised first token gives `UnknownOperation`;
each is the line's one diagnostic and the line is Invalid (42_encoder.md R165; what the
token field holds is the spec's own decision, 92 D9: log entry 20). -/
def Obligations.MissingAndUnknownOperations : Prop :=
  (∀ cfg line n, lineTokens cfg line = [] →
    encode cfg line n = (.invalid, [⟨n, [], .missingOperation, none, none⟩])) ∧
  (∀ cfg line n, (∀ c ∈ line, cfg.isWs c = true) →
    encode cfg line n = (.invalid, [⟨n, [], .missingOperation, none, none⟩])) ∧
  (∀ cfg line n m ops, lineTokens cfg line = m :: ops →
    (∀ op, (specOf op).mnemonic ≠ if cfg.foldCase then upper m else m) →
    encode cfg line n = (.invalid, [⟨n, m, .unknownOperation, none, none⟩]))

/-- When the operand tokens are more or fewer than the schema has types, the line is Invalid with exactly one
diagnostic in total, which carries both counts, whatever the operands are (42_encoder.md R166; "This spec reads
that as exactly one diagnostic in total", 92 D6, and the token field, D9: log entries 17, 20). -/
def Obligations.ArityMismatchIsOneDiagnostic : Prop :=
  ∀ cfg line n m ops spec, lineTokens cfg line = m :: ops → lookup cfg m = some spec →
    ops.length ≠ spec.schema.length →
    encode cfg line n =
      (.invalid, [⟨n, m, .arityMismatch, some spec.schema.length, some ops.length⟩])

/-- Each operand is validated against its position's type, and each failing one gives its own diagnostic, in
ascending position; one failing operand makes the line Invalid (42_encoder.md R167; what the token field holds
is the spec's own decision, 92 D9: log entry 20). -/
def Obligations.EveryFailingOperandIsReported : Prop :=
  ∀ cfg line n m ops spec, lineTokens cfg line = m :: ops → lookup cfg m = some spec →
    ops.length = spec.schema.length →
    (encode cfg line n).2 = (spec.schema.zip ops).filterMap (fun p =>
      match validate cfg p.1 p.2 with
      | .ok _ => none
      | .error r => some ⟨n, p.2, r, none, none⟩) ∧
    ((encode cfg line n).1 = .invalid ↔ ∃ p ∈ spec.schema.zip ops, ∀ b, validate cfg p.1 p.2 ≠ .ok b)

/-- R168: when every operand validated, the word is the opcode bits, the operand bits in order and zeros up
to exactly 32 bits, and there is no diagnostic; when any failed, no word is emitted. -/
def Obligations.ValidLinesEmitThePackedWord : Prop :=
  ∀ cfg line n m ops spec, lineTokens cfg line = m :: ops → lookup cfg m = some spec →
    ops.length = spec.schema.length →
    (∀ bs : List Bits, List.Forall₂ (fun p b => validate cfg p.1 p.2 = .ok b) (spec.schema.zip ops) bs →
      bs.flatten.length ≤ 28 ∧ ∃ w : Word, encode cfg line n = (.valid w, []) ∧
        w.toNat = uint (bin 4 spec.opcode.toNat ++ bs.flatten ++ zeros (28 - bs.flatten.length))) ∧
    ((∃ p ∈ spec.schema.zip ops, ∀ b, validate cfg p.1 p.2 ≠ .ok b) →
      (encode cfg line n).1 = .invalid ∧ (encode cfg line n).2 ≠ [])

/-- A line gives exactly one diagnostic of the first three steps, or else only operand diagnostics: never a
mixture (60_exceptions.md R232, in part; no operand is validated after an arity mismatch by 92 D6: log entry
17). -/
def Obligations.DiagnosticsAreNeverMixed : Prop :=
  ∀ cfg line n, (∃ d, (encode cfg line n).2 = [d] ∧ isLineReason d.reason = true) ∨
    ∀ d ∈ (encode cfg line n).2, isLineReason d.reason = false

/-- A valid line gives no diagnostic, an Invalid line between one and four, all of them of this line
(44_diagnostics_batch.md R212, which the spec marks as derived). -/
def Obligations.DiagnosticsPerLineAreBounded : Prop :=
  ∀ cfg line n, ((encode cfg line n).1 ≠ .invalid → (encode cfg line n).2 = []) ∧
    ((encode cfg line n).1 = .invalid → 1 ≤ (encode cfg line n).2.length ∧ (encode cfg line n).2.length ≤ 4) ∧
    ∀ d ∈ (encode cfg line n).2, d.line = n

/-- The line number shows in the diagnostics' `line` fields and nowhere else (42_encoder.md R160, 92 D18). -/
def Obligations.LineNumberOnlyLabelsDiagnostics : Prop :=
  ∀ cfg line n m, (encode cfg line n).1 = (encode cfg line m).1 ∧
    (encode cfg line n).2 = (encode cfg line m).2.map fun d => { d with line := n }

/-- Encode-then-decode: the decoded text of a valid line's word is its canonical form; a canonical line is a
fixed point and encodes to the same word, where the configuration reads rendered text (43_decoder.md R197,
R198, partly marked derived; the text layout is 92 D7: log entry 18). -/
def Obligations.EncodeThenDecodeIsCanonicalForm : Prop :=
  ∀ cfg line n w, encode cfg line n = (.valid w, []) →
    ∃ t, canonicalLine cfg line = some t ∧ decodeWord w = .ok t ∧
      (ReadsRenderedText cfg → canonicalLine cfg t = some t ∧ ∀ m, encode cfg t m = (.valid w, []))

/-- Decode-then-encode: the text of a word that decodes encodes to the word with its padding cleared, which
for CJP is the word itself (43_decoder.md R199, which the spec marks as derived, on 92 D7 and D8: log entries
18, 19). -/
def Obligations.DecodeThenEncodeClearsPadding : Prop :=
  ∀ cfg, ReadsRenderedText cfg → ∀ w t n, decodeWord w = .ok t →
    encode cfg t n = (.valid (clearPadding w), []) ∧ (opcodeField w = 0xF#4 → clearPadding w = w)

/-! ### The instructions: each one's word and text, and all of the next state

The layout of the texts is the spec's own decision (92 D7): log entry 18. That an instruction outside
`DECODE_WORD` is a line's is the model's: log entry 5. -/

/-- Every meaning emits the word the encoder packs and renders the text of the registry's row: the formulas
of 41_operations.md agree with 30_encoding.md R70 and 43_decoder.md R195. That the word and the text are the
instruction's meaning is log entry 1. -/
def Obligations.MeaningsAgreeWithEncoderAndRenderer : Prop :=
  ∀ (i : Instr) (s : State), i.WellFormed →
    exec i s = .next (converted s (encodeInstr i) (render (specOf i.op) i.operands))

/-- ADD, SUB, GRT, EQL, AND, BOR and XOR complete in every state: word
`(op << 28) | (a << 24) | (b << 20) | (c << 16)`, text `<op> rg<a> rg<b> rg<c>`, nothing else changed
(41_operations.md R131 to R137). -/
def Obligations.ThreeRegisterInstructions : Prop :=
  ∀ (a b c : Nat) (s : State), a < 16 → b < 16 → c < 16 →
    ∀ row ∈ [(Instr.add a b c, 0x0, ['A', 'D', 'D']), (Instr.sub a b c, 0x1, ['S', 'U', 'B']),
        (Instr.grt a b c, 0x2, ['G', 'R', 'T']), (Instr.eql a b c, 0x3, ['E', 'Q', 'L']),
        (Instr.and a b c, 0x8, ['A', 'N', 'D']), (Instr.bor a b c, 0x9, ['B', 'O', 'R']),
        (Instr.xor a b c, 0xA, ['X', 'O', 'R'])],
      exec row.1 s = .next (converted s
        (BitVec.ofNat 32 ((row.2.1 <<< 28) ||| (a <<< 24) ||| (b <<< 20) ||| (c <<< 16)))
        (row.2.2 ++ " rg".toList ++ Nat.toDigits 10 a ++ " rg".toList ++ Nat.toDigits 10 b ++
          " rg".toList ++ Nat.toDigits 10 c))

/-- RRD, NOT and INV complete in every state: word `(op << 28) | (a << 24) | (b << 20)`, text
`<op> rg<a> rg<b>`, nothing else changed (41_operations.md R141, R143, R146). -/
def Obligations.TwoRegisterInstructions : Prop :=
  ∀ (a b : Nat) (s : State), a < 16 → b < 16 →
    ∀ row ∈ [(Instr.rrd a b, 0x6, ['R', 'R', 'D']), (Instr.not a b, 0xB, ['N', 'O', 'T']),
        (Instr.inv a b, 0xE, ['I', 'N', 'V'])],
      exec row.1 s = .next (converted s (BitVec.ofNat 32 ((row.2.1 <<< 28) ||| (a <<< 24) ||| (b <<< 20)))
        (row.2.2 ++ " rg".toList ++ Nat.toDigits 10 a ++ " rg".toList ++ Nat.toDigits 10 b))

/-- RLD and RMS complete in every state: word `(op << 28) | (m << 20) | (a << 16)`, text `<op> rm<m> rg<a>`,
nothing else changed (41_operations.md R144, R145). -/
def Obligations.RamInstructions : Prop :=
  ∀ (m a : Nat) (s : State), m < 256 → a < 16 →
    ∀ row ∈ [(Instr.rld m a, 0xC, ['R', 'L', 'D']), (Instr.rms m a, 0xD, ['R', 'M', 'S'])],
      exec row.1 s = .next (converted s (BitVec.ofNat 32 ((row.2.1 <<< 28) ||| (m <<< 20) ||| (a <<< 16)))
        (row.2.2 ++ " rm".toList ++ Nat.toDigits 10 m ++ " rg".toList ++ Nat.toDigits 10 a))

/-- JMP and CJP complete in every state: words `(0x4 << 28) | (l << 12)` and
`(0xF << 28) | (l << 12) | (a << 8) | (b << 4) | s` with `s` 8, 9 or 10, texts `JMP ln<l>` and
`CJP ln<l> rg<a> rg<b> <AND|BOR|XOR>`, nothing else changed (41_operations.md R138, R139). -/
def Obligations.JumpInstructions : Prop :=
  ∀ (l a b : Nat) (s : State), l < 65536 → a < 16 → b < 16 →
    exec (.jmp l) s = .next (converted s (BitVec.ofNat 32 ((0x4 <<< 28) ||| (l <<< 12)))
      ("JMP ln".toList ++ Nat.toDigits 10 l)) ∧
    ∀ row ∈ [(Selector.and, 8, " AND".toList), (Selector.bor, 9, " BOR".toList),
        (Selector.xor, 10, " XOR".toList)],
      exec (.cjp l a b row.1) s = .next (converted s
        (BitVec.ofNat 32 ((0xF <<< 28) ||| (l <<< 12) ||| (a <<< 8) ||| (b <<< 4) ||| row.2.1))
        ("CJP ln".toList ++ Nat.toDigits 10 l ++ " rg".toList ++ Nat.toDigits 10 a ++
          " rg".toList ++ Nat.toDigits 10 b ++ row.2.2))

/-- RST completes in every state: word `(0x5 << 28) | (a << 24) | ((imm mod 2^16) << 8)`, text
`RST rg<a> <signed decimal>`, nothing else changed; a negative immediate leaves `W[7:0]` zero
(41_operations.md R140). -/
def Obligations.RegisterSetInstruction : Prop :=
  ∀ (a : Nat) (v : Int) (s : State), a < 16 → -32768 ≤ v → v < 32768 →
    ∃ w : Word, w = BitVec.ofNat 32 ((0x5 <<< 28) ||| (a <<< 24) ||| ((v % 65536).toNat <<< 8)) ∧
      slice w 0 8 = 0 ∧ sint 16 (slice w 8 16) = v ∧
      exec (.rst a v) s = .next (converted s w
        ("RST rg".toList ++ Nat.toDigits 10 a ++ " ".toList ++ (if v < 0 then ['-'] else []) ++
          Nat.toDigits 10 v.natAbs))

/-- RCL completes in every state, with exactly one word and the text `RCL`, nothing else changed; and every
word with its opcode decodes to it, whatever its padding (41_operations.md R142; that the decoder ignores the
padding is the spec's own decision, 92 D8: log entry 19). -/
def Obligations.RegisterClearInstruction : Prop :=
  (∀ s : State, exec .rcl s = .next (converted s 0x70000000#32 "RCL".toList)) ∧
  (∀ w : Word, decodeInstr w = .ok .rcl ↔ w.toNat / 2 ^ 28 = 7)

/-! ### The port operations -/

/-- A step that serves `DECODE_WORD` of a word that decodes runs the decoded instruction, in the state as it
stands (the operation is still at the head of the queue, and the meaning takes it off). -/
def Obligations.StepRunsTheDecodedInstruction : Prop :=
  ∀ (s : State) (w : Word) (rest : List Request) (i : Instr), s.requests = .decodeWord w :: rest →
    decodeInstr w = .ok i → step s = exec i s

/-- A step that serves `ENCODE_LINE` of a line that denotes an instruction runs that instruction, in the
state as it stands. -/
def Obligations.StepRunsTheLinesInstruction : Prop :=
  ∀ (s : State) (line : Text) (rest : List Request) (i : Instr), s.requests = .encodeLine line :: rest →
    lineInstr s.cfg line = some i → step s = exec i s

/-- `ENCODE_LINE` is the one atomic transition of 42_encoder.md R171, with the pure `encode` at the number
`LINE_CTR + 1`: through the instruction meanings for valid lines, through the failure entry for the others.
The queue and the returned value are log entries 2 and 3; the counter is 92 D11: log entry 21. -/
def Obligations.EncodeLineIsTheSpecTransition : Prop :=
  ∀ (s : State) (line : Text) (rest : List Request), s.requests = .encodeLine line :: rest →
    step s = .next (afterLine s (encode s.cfg line (s.lineCtr + 1)).1 (encode s.cfg line (s.lineCtr + 1)).2)

/-- `DECODE_WORD` returns what the pure decoder gives, a failure as a value, and writes none of the block's
state (10_state.md R32; 43_decoder.md R190, R191, R201; 60_exceptions.md R235). -/
def Obligations.DecodeWordAnswersAndWritesNothing : Prop :=
  ∀ (s : State) (w : Word) (rest : List Request), s.requests = .decodeWord w :: rest →
    step s = .next (afterAnswer s (decodeAnswer w))

/-- `RESET_BATCH` empties the batch state and leaves `CFG` (and the constant tables) alone; the environment's
start of a batch sets `CFG` and does the same (70_reset_and_hazards.md R260 to R262; log entry 8). -/
def Obligations.ResetClearsTheBatch : Prop :=
  (∀ (s : State) (rest : List Request), s.requests = .resetBatch :: rest →
    step s = .next ⟨s.cfg, 0, [], [], rest, s.answers⟩) ∧
  (∀ (s : State) (c : Cfg) (rest : List Request), s.requests = .newBatch c :: rest →
    step s = .next ⟨c, 0, [], [], rest, s.answers⟩)

/-- `LOOKUP` and `LOOKUP_BY_OPCODE` answer from the registry and write nothing, and the second never answers
`NotFound` (41_operations.md R130; 60_exceptions.md R231). -/
def Obligations.RegistryOperationsAnswer : Prop :=
  (∀ (s : State) (m : Text) (rest : List Request), s.requests = .lookup m :: rest →
    ∃ found, step s = .next (afterAnswer s (.spec found)) ∧ ∀ spec, found = some spec ↔
      spec ∈ s.operationRom ∧ spec.mnemonic = if s.cfg.foldCase then upper m else m) ∧
  (∀ (s : State) (b : BitVec 4) (rest : List Request), s.requests = .lookupByOpcode b :: rest →
    ∃ spec, step s = .next (afterAnswer s (.spec (some spec))) ∧ s.operationRom[b.toNat]? = some spec)

/-- The pure `encode` called directly takes its own configuration and any line number unchecked, and writes none
of the block's state (42_encoder.md R160; 70_reset_and_hazards.md R266; log entry 24). -/
def Obligations.DirectEncodeWritesNothing : Prop :=
  ∀ (s : State) (cfg : Cfg) (line : Text) (n : Nat) (rest : List Request),
    s.requests = .encode cfg line n :: rest →
    step s = .next (afterAnswer s (.encoded (encode cfg line n).1 (encode cfg line n).2))

/-- A read of the batch shows `RESULTS`, `DIAG_LOG`, `ANY_INVALID` and, entry by entry, the transport text of
each Valid word and none for an Invalid line; it writes nothing (44_diagnostics_batch.md R215; 10_state.md
R30). -/
def Obligations.ReadBatchShowsTheOutputs : Prop :=
  ∀ (s : State) (rest : List Request), s.requests = .readBatch :: rest →
    ∃ out, step s = .next (afterAnswer s (.batch out)) ∧ out.results = s.results ∧
      out.diagnostics = s.diagLog ∧ (out.anyInvalid = true ↔ LineResult.invalid ∈ s.results) ∧
      out.hex.length = s.results.length ∧
      ∀ k : Nat, (∀ w, s.results[k]? = some (.valid w) → out.hex[k]? = some (some (hex8 w))) ∧
        (s.results[k]? = some .invalid → out.hex[k]? = some none)

/-- `ENCODE_BATCH(lines)` from any state: after the resetting, one `ENCODE_LINE` per line and the read, every
line has its result and its diagnostics, in line order and numbered from 1, nothing of an earlier batch is
left, and no line stopped the batch (44_diagnostics_batch.md R214; 20_memory.md R61;
70_reset_and_hazards.md R262; that every line counts and that RESULTS is emptied are the spec's own decisions,
92 D11, D15: log entry 21). One step unrolls the loop (log entry 11). -/
def Obligations.EncodeBatchProcessesEveryLine : Prop :=
  ∀ (s : State) (lines : List Text) (rest : List Request), s.requests = .encodeBatch lines :: rest →
    Host.Core.run Sys2Proof.core (lines.length + 3) s = .next (afterBatch s lines)

/-- `DECODE_BATCH(words)` from any state: one answer per word, in order, the failures kept among them, and no
state written (44_diagnostics_batch.md R216). One step unrolls the loop (log entry 11). -/
def Obligations.DecodeBatchAnswersEveryWord : Prop :=
  ∀ (s : State) (words : List Word) (rest : List Request), s.requests = .decodeBatch words :: rest →
    Host.Core.run Sys2Proof.core (words.length + 1) s =
      .next ⟨s.cfg, s.lineCtr, s.diagLog, s.results, rest, s.answers ++ words.map decodeAnswer⟩

/-! ### The whole machine -/

/-- The block has no traps: in every state a step answers a next state, never a fault or a refusal
(60_exceptions.md R231, R235; 42_encoder.md R169). With nothing issued the state does not change, the
model's own choice (log entry 4). -/
def Obligations.EveryStepCompletes : Prop :=
  (∀ s : State, ∃ t, step s = .next t) ∧
  (∀ s : State, s.requests = [] → step s = .next s)

/-- Only the environment's start of a batch changes `CFG`, and it leaves the batch empty: `CFG` is read-only
within a batch (10_state.md R26; 70_reset_and_hazards.md R262; log entry 8). -/
def Obligations.CfgIsConstantWithinABatch : Prop :=
  ∀ s t : State, step s = .next t → t.cfg = s.cfg ∨
    ∃ rest, s.requests = .newBatch t.cfg :: rest ∧ t.lineCtr = 0 ∧ t.diagLog = [] ∧ t.results = []

/-- `DIAG_LOG`, `RESULTS` and `LINE_CTR` only grow within a batch, only `ENCODE_LINE` changes them, and it
appends exactly one result and counts exactly one line (10_state.md R27, R28, R29; 44_diagnostics_batch.md
R210; that every presented line counts, blank ones too, is the spec's own decision, 92 D11: log entry 21). -/
def Obligations.OnlyEncodeLineAppends : Prop :=
  ∀ s t : State, step s = .next t →
    (∀ rest, s.requests ≠ .resetBatch :: rest) → (∀ c rest, s.requests ≠ .newBatch c :: rest) →
    (∃ ds, t.diagLog = s.diagLog ++ ds) ∧
    ((∃ line rest, s.requests = .encodeLine line :: rest) →
      t.lineCtr = s.lineCtr + 1 ∧ ∃ r, t.results = s.results ++ [r]) ∧
    ((∀ line rest, s.requests ≠ .encodeLine line :: rest) →
      t.lineCtr = s.lineCtr ∧ t.results = s.results ∧ t.diagLog = s.diagLog)

/-- The result of a line, and its diagnostics but for their line number, do not depend on what the batch holds
already: lines are independent (10_state.md R31; 40_operand_types.md R112). -/
def Obligations.LinesAreIndependent : Prop :=
  ∀ (s s' : State) (line : Text) (rest rest' : List Request), s.cfg = s'.cfg →
    s.requests = .encodeLine line :: rest → s'.requests = .encodeLine line :: rest' →
    ∃ t t' r ds, step s = .next t ∧ step s' = .next t' ∧
      t.results = s.results ++ [r] ∧ t'.results = s'.results ++ [r] ∧
      t.diagLog = s.diagLog ++ ds ∧ t'.diagLog = s'.diagLog ++ ds.map fun d => { d with line := s'.lineCtr + 1 }

/-- The batch invariant of 44_diagnostics_batch.md R213 (which the spec marks as derived) is kept by every
step, from every state that has it. -/
def Obligations.EveryStepKeepsTheBatchInvariant : Prop :=
  ∀ s t : State, s.BatchInv → step s = .next t → t.BatchInv

/-- The state after start-up has the values of 10_state.md R36 (with `CFG` at its defaults, log entry 13) and
the batch invariant. -/
def Obligations.StartUpHasTheBatchInvariant : Prop :=
  State.reset.BatchInv ∧ State.reset.lineCtr = 0 ∧ State.reset.diagLog = [] ∧ State.reset.results = [] ∧
    State.reset.cfg = defaultCfg

/-- Within a batch, `ANY_INVALID` holds exactly when `DIAG_LOG` is not empty (10_state.md R30, marked derived;
90_conflicts.md C9). -/
def Obligations.AnyInvalidMatchesTheLog : Prop :=
  ∀ s : State, s.BatchInv → (s.anyInvalid = true ↔ s.diagLog ≠ [])
end

