-- ==== Sys2Proof/Laws/Bits.lean ====
section
/-! SUPPORT. The laws of bit strings, fields and two's complement. -/

namespace Sys2Proof

@[simp] theorem length_bin (n v : Nat) : (bin n v).length = n := by
  induction n with
  | zero => rfl
  | succ n ih => simp [bin, ih]

@[simp] theorem length_zeros (n : Nat) : (zeros n).length = n := by simp [zeros]

@[simp] theorem uint_nil : uint [] = 0 := rfl

theorem foldl_uint (b : Bits) (acc : Nat) :
    b.foldl (fun acc x => 2 * acc + x.toNat) acc = acc * 2 ^ b.length + uint b := by
  induction b generalizing acc with
  | nil => simp [uint]
  | cons x b ih =>
    rw [uint, List.foldl_cons, List.foldl_cons, ih, ih (2 * 0 + x.toNat), List.length_cons, pow_succ]
    ring

theorem uint_cons (x : Bool) (b : Bits) : uint (x :: b) = x.toNat * 2 ^ b.length + uint b := by
  have h := foldl_uint b (2 * 0 + x.toNat)
  simpa [uint] using h

theorem uint_append (a b : Bits) : uint (a ++ b) = uint a * 2 ^ b.length + uint b := by
  have h := foldl_uint b (uint a)
  simpa [uint, List.foldl_append] using h

theorem uint_lt (b : Bits) : uint b < 2 ^ b.length := by
  induction b with
  | nil => simp
  | cons x b ih =>
    rw [uint_cons, List.length_cons, pow_succ]
    cases x <;> simp <;> omega

@[simp] theorem uint_zeros (n : Nat) : uint (zeros n) = 0 := by
  induction n with
  | zero => rfl
  | succ n ih =>
    have h : zeros (n + 1) = false :: zeros n := rfl
    simp [h, uint_cons, ih]

/-- A string of `n` bits is the low `n` bits of its value. -/
theorem uint_bin (n v : Nat) : uint (bin n v) = v % 2 ^ n := by
  induction n with
  | zero => simp [bin, Nat.mod_one]
  | succ n ih =>
    rw [bin, uint_cons, length_bin, ih, Nat.mod_pow_succ, Nat.toNat_testBit, Nat.add_comm, Nat.mul_comm]

theorem uint_bin_of_lt {n v : Nat} (h : v < 2 ^ n) : uint (bin n v) = v := by
  rw [uint_bin, Nat.mod_eq_of_lt h]

/-- Bit strings of one length with one value are equal. -/
theorem bin_uint (b : Bits) : bin b.length (uint b) = b := by
  induction b with
  | nil => rfl
  | cons x b ih =>
    have hlt := uint_lt b
    have hx : (x.toNat * 2 ^ b.length + uint b).testBit b.length = x := by
      rw [Nat.mul_comm, Nat.testBit_two_pow_mul_add _ hlt]
      cases x <;> simp
    have hmod : ∀ n v w : Nat, v % 2 ^ n = w % 2 ^ n → bin n v = bin n w := by
      intro n
      induction n with
      | zero => intros; rfl
      | succ n ihn =>
        intro v w h
        have hb : v.testBit n = w.testBit n := by
          have := congrArg (fun m => Nat.testBit m n) h
          simpa [Nat.testBit_mod_two_pow] using this
        have hm : v % 2 ^ n = w % 2 ^ n := by
          have := congrArg (· % 2 ^ n) h
          simpa [Nat.mod_mod_of_dvd _ (pow_dvd_pow 2 (Nat.le_succ n))] using this
        rw [bin, bin, hb, ihn v w hm]
    rw [List.length_cons, bin, uint_cons, hx]
    congr 1
    rw [← ih, length_bin, ih]
    exact (hmod _ _ _ (by simp)).trans ih

theorem slice_eq (w : Word) (lo n : Nat) : slice w lo n = w.toNat / 2 ^ lo % 2 ^ n := by
  simp [slice, BitVec.extractLsb'_toNat, Nat.shiftRight_eq_div_pow]

theorem slice_lt (w : Word) (lo n : Nat) : slice w lo n < 2 ^ n := (w.extractLsb' lo n).isLt

/-- The value of a packed word, for a string that fits. -/
theorem packWord_toNat {b : Bits} (h : b.length ≤ 32) :
    (packWord b).toNat = uint b * 2 ^ (32 - b.length) := by
  have hlt := uint_lt b
  have hpow : 2 ^ 32 = 2 ^ b.length * 2 ^ (32 - b.length) := by
    rw [← pow_add]; congr 1; omega
  rw [packWord, uint_append, uint_zeros, length_zeros, Nat.add_zero, BitVec.toNat_ofNat, Nat.mod_eq_of_lt]
  rw [hpow]
  exact Nat.mul_lt_mul_of_pos_right hlt (by positivity)

/-- `sint_16` inverts `v mod 2^16` on the immediates (40_operand_types.md rule R110). -/
theorem sint_emod {v : Int} (h : -32768 ≤ v ∧ v < 32768) : sint 16 (v % 65536).toNat = v := by
  unfold sint
  split <;> omega

theorem sint_range {u : Nat} (h : u < 65536) : -32768 ≤ sint 16 u ∧ sint 16 u < 32768 := by
  unfold sint
  split <;> omega

theorem sint_emod_toNat {u : Nat} (h : u < 65536) : (sint 16 u % 65536).toNat = u := by
  unfold sint
  split <;> omega

end Sys2Proof
end

