-- ==== Sys2Proof/Laws/Tables.lean ====
section
/-! SUPPORT. The laws of the registry: the tables are each other's inverses (10_state.md rules R22 to R25). -/

namespace Sys2Proof

@[simp] theorem specOf_op (op : Op) : (specOf op).op = op := by cases op <;> rfl

theorem lookupByOpcode_specOf (op : Op) : lookupByOpcode (specOf op).opcode = some (specOf op) := by
  cases op <;> rfl

/-- Every 4-bit value is the opcode of exactly one operation. -/
theorem opcode_assigned (b : BitVec 4) : ∃ op, (specOf op).opcode = b := by
  have h : ∀ b : BitVec 4, ([Op.add, .sub, .grt, .eql, .jmp, .rst, .rrd, .rcl, .and, .bor, .xor, .not, .rld,
      .rms, .inv, .cjp].any fun op => (specOf op).opcode == b) = true := by decide
  obtain ⟨op, -, hop⟩ := List.any_eq_true.mp (h b)
  exact ⟨op, by simpa using hop⟩

theorem lookupByOpcode_some (b : BitVec 4) : ∃ op, lookupByOpcode b = some (specOf op) ∧ (specOf op).opcode = b := by
  obtain ⟨op, rfl⟩ := opcode_assigned b
  exact ⟨op, lookupByOpcode_specOf op, rfl⟩

theorem opcode_injective {a b : Op} (h : (specOf a).opcode = (specOf b).opcode) : a = b := by
  have := lookupByOpcode_specOf a
  rw [h, lookupByOpcode_specOf b, Option.some.injEq] at this
  simpa using (congrArg OperationSpec.op this).symm

/-- What `LOOKUP` finds is a row of the ROM whose mnemonic is the key. -/
theorem lookup_some {cfg : Cfg} {m : Text} {spec : OperationSpec} (h : lookup cfg m = some spec) :
    spec = specOf spec.op ∧ spec.mnemonic = matchKey cfg m := by
  unfold lookup at h
  have hm := List.mem_of_find?_eq_some h
  have hk := List.find?_some h
  refine ⟨?_, by simpa using hk⟩
  simp only [operationRom, List.mem_map] at hm
  obtain ⟨op, -, rfl⟩ := hm
  simp

/-- The mnemonics are already upper case. -/
@[simp] theorem upper_mnemonic (op : Op) : upper (specOf op).mnemonic = (specOf op).mnemonic := by
  cases op <;> decide

@[simp] theorem matchKey_mnemonic (cfg : Cfg) (op : Op) : matchKey cfg (specOf op).mnemonic = (specOf op).mnemonic := by
  unfold matchKey; split <;> simp

theorem lookup_mnemonic (cfg : Cfg) (op : Op) : lookup cfg (specOf op).mnemonic = some (specOf op) := by
  unfold lookup
  rw [matchKey_mnemonic]
  cases op <;> rfl

theorem selectorLut_specOf (s : Selector) : selectorLut (specOf (selectorOp s)).opcode = some s := by
  cases s <;> rfl

theorem selectorLut_some {f : BitVec 4} {s : Selector} (h : selectorLut f = some s) :
    (specOf (selectorOp s)).opcode = f := by
  revert h
  revert f s
  have h : ∀ f : BitVec 4, ∀ s ∈ [Selector.and, .bor, .xor], selectorLut f = some s →
      (specOf (selectorOp s)).opcode = f := by decide
  intro f s
  exact h f s (by cases s <;> simp)

theorem selectorOfToken_mnemonic (cfg : Cfg) (s : Selector) :
    selectorOfToken cfg (specOf (selectorOp s)).mnemonic = some s := by
  unfold selectorOfToken
  rw [matchKey_mnemonic]
  cases s <;> rfl

end Sys2Proof
end

