-- ==== Sys2Proof/Laws/Operands.lean ====
section
/-! SUPPORT. The laws of operand values: their fields, their tokens and their rendering
(40_operand_types.md; 43_decoder.md rule R195). -/

namespace Sys2Proof

/-! ### Fields -/

@[simp] theorem length_fieldBits (v : Value) : (fieldBits v).length = operandWidth v.type := by
  cases v <;> simp [fieldBits, Value.type]

/-- A field holds its value: the decoder reads back what the encoder wrote (R79). -/
theorem fieldValue_fieldBits {v : Value} (h : v.InDomain) : fieldValue v.type (uint (fieldBits v)) = some v := by
  cases v with
  | reg n => simpa [fieldValue, fieldBits, Value.type, operandWidth, operandTypeRom, uint_bin] using h
  | ram n => simpa [fieldValue, fieldBits, Value.type, operandWidth, operandTypeRom, uint_bin] using h
  | line n => simpa [fieldValue, fieldBits, Value.type, operandWidth, operandTypeRom, uint_bin] using h
  | imm v =>
    have hb : (v % 65536).toNat < 2 ^ 16 := by omega
    have hs := sint_emod h
    simp only [fieldValue, fieldBits, Value.type, operandWidth, operandTypeRom, uint_bin]
    rw [show (2 : Int) ^ 16 = 65536 by norm_num, Nat.mod_eq_of_lt hb, hs]
  | sel s => cases s <;> rfl

theorem fieldValue_type {t : OperandType} {f : Nat} {v : Value} (h : fieldValue t f = some v) : v.type = t := by
  cases t <;> simp [fieldValue] at h
  case bitwiseSelector => obtain ⟨s, -, rfl⟩ := h; rfl
  all_goals (subst h; rfl)

theorem fieldValue_inDomain {t : OperandType} {f : Nat} {v : Value} (hf : f < 2 ^ operandWidth t)
    (h : fieldValue t f = some v) : v.InDomain := by
  cases t <;> simp [fieldValue] at h
  case bitwiseSelector => obtain ⟨s, -, rfl⟩ := h; trivial
  case immediate => subst h; exact sint_range hf
  all_goals (subst h; exact hf)

/-- A field is the encoding of the value read from it. -/
theorem fieldBits_fieldValue {t : OperandType} {f : Nat} {v : Value} (hf : f < 2 ^ operandWidth t)
    (h : fieldValue t f = some v) : uint (fieldBits v) = f := by
  cases t <;> simp [fieldValue] at h
  case bitwiseSelector =>
    obtain ⟨s, hs, rfl⟩ := h
    have hf' : f < 16 := hf
    rw [fieldBits, selectorLut_some hs, uint_bin]
    simp only [BitVec.toNat_ofNat]
    show f % 2 ^ 4 % 2 ^ 4 = f
    omega
  case immediate =>
    subst h
    have hf' : f < 65536 := hf
    have hs := sint_emod_toNat hf'
    simp only [fieldBits, operandWidth, operandTypeRom, uint_bin]
    rw [show (2 : Int) ^ 16 = 65536 by norm_num, hs]
    exact Nat.mod_eq_of_lt hf
  all_goals (subst h; rw [fieldBits, uint_bin]; exact Nat.mod_eq_of_lt hf)

/-! ### Decimals -/

theorem isDigit_digitChar {n : Nat} (h : n < 10) : isDigit (digitChar n) = true := by
  interval_cases n <;> decide

theorem digitChar_value {n : Nat} (h : n < 10) : (digitChar n).toNat - 48 = n := by
  interval_cases n <;> decide

theorem foldl_dec (s : Text) (acc : Nat) :
    s.foldl (fun acc c => 10 * acc + (c.toNat - 48)) acc = acc * 10 ^ s.length + dec s := by
  induction s generalizing acc with
  | nil => simp [dec]
  | cons c s ih =>
    rw [dec, List.foldl_cons, List.foldl_cons, ih, ih (10 * 0 + (c.toNat - 48)), List.length_cons, pow_succ]
    ring

theorem dec_cons (c : Char) (s : Text) : dec (c :: s) = (c.toNat - 48) * 10 ^ s.length + dec s := by
  have h := foldl_dec s (10 * 0 + (c.toNat - 48))
  simpa [dec] using h

theorem decimalWith_spec (fuel n : Nat) (acc : Text) (h : n < fuel) :
    ∃ ds : Text, decimalWith fuel n acc = ds ++ acc ∧ digits ds = true ∧ dec ds = n := by
  induction fuel generalizing n acc with
  | zero => omega
  | succ fuel ih =>
    unfold decimalWith
    split
    · rename_i hn
      refine ⟨[digitChar n], rfl, ?_, ?_⟩
      · simp [digits, isDigit_digitChar hn]
      · simp [dec, digitChar_value hn]
    · obtain ⟨ds, he, hd, hv⟩ := ih (n / 10) (digitChar (n % 10) :: acc) (by omega)
      have hm : n % 10 < 10 := Nat.mod_lt _ (by norm_num)
      refine ⟨ds ++ [digitChar (n % 10)], by simp [he], ?_, ?_⟩
      · simp only [digits, Bool.and_eq_true] at hd ⊢
        simp [hd.2, isDigit_digitChar hm]
      · have : dec (ds ++ [digitChar (n % 10)]) = 10 * dec ds + ((digitChar (n % 10)).toNat - 48) := by
          simp [dec, List.foldl_append]
        rw [this, hv, digitChar_value hm]
        omega

theorem digits_decimal (n : Nat) : digits (decimal n) = true := by
  obtain ⟨ds, he, hd, -⟩ := decimalWith_spec (n + 1) n [] (by omega)
  rw [decimal, he, List.append_nil, hd]

/-- A rendered decimal reads back as its number. -/
theorem dec_decimal (n : Nat) : dec (decimal n) = n := by
  obtain ⟨ds, he, -, hv⟩ := decimalWith_spec (n + 1) n [] (by omega)
  rw [decimal, he, List.append_nil, hv]

/-! ### Tokens -/

/-- What the prefixed algorithm accepts (R102). -/
theorem prefixedNumber_some {t : OperandType} {tok : Text} {n : Nat} :
    prefixedNumber t tok = some n ↔
      (operandTypeRom t).lead.isPrefixOf tok = true ∧ digits (tok.drop 2) = true ∧ inRange t n = true ∧
        dec (tok.drop 2) = n := by
  unfold prefixedNumber
  by_cases h : (operandTypeRom t).lead.isPrefixOf tok = true
  · by_cases hd : digits (tok.drop 2) = true
    · by_cases hr : inRange t (dec (tok.drop 2)) = true
      · simp only [h, hd, hr, Bool.and_self, if_true, Option.some.injEq, true_and]
        exact ⟨fun e => ⟨e ▸ hr, e⟩, fun e => e.2⟩
      · simp only [h, hd, hr, Bool.and_false, if_true, true_and]
        constructor
        · intro e; simp at e
        · rintro ⟨hr', e⟩; exact absurd (e ▸ hr') hr
    · simp [h, hd]
  · simp [h]

theorem immediateNumber_inDomain {tok : Text} {v : Int} (h : immediateNumber tok = some v) :
    -32768 ≤ v ∧ v < 32768 := by
  unfold immediateNumber at h
  have := (Option.filter_eq_some_iff.mp h).2
  simpa [inRange, operandTypeRom] using this

/-- A valid token's value is of its position's type and in its domain. -/
theorem operandValue_some {cfg : Cfg} {t : OperandType} {tok : Text} {v : Value}
    (h : operandValue cfg t tok = some v) : v.type = t ∧ v.InDomain := by
  cases t <;> simp only [operandValue, Option.map_eq_some_iff] at h <;> obtain ⟨n, hn, rfl⟩ := h
  case immediate => exact ⟨rfl, immediateNumber_inDomain hn⟩
  case bitwiseSelector => exact ⟨rfl, trivial⟩
  all_goals
    have hr := (prefixedNumber_some.mp hn).2.2.1
    simp [inRange, operandTypeRom] at hr
    refine ⟨rfl, ?_⟩
    simp only [Value.InDomain]
    omega

theorem prefixedNumber_render {t : OperandType} {n : Nat} (hl : (operandTypeRom t).lead.length = 2)
    (hr : inRange t n = true) : prefixedNumber t ((operandTypeRom t).lead ++ decimal n) = some n := by
  rw [prefixedNumber_some]
  have hd : ((operandTypeRom t).lead ++ decimal n).drop 2 = decimal n := by
    rw [← hl]; simp
  rw [hd]
  exact ⟨by simp, digits_decimal n, hr, dec_decimal n⟩

theorem signedDecimal_digits {s : Text} (h : digits s = true) : signedDecimal s = some (dec s : Int) := by
  cases s with
  | nil => simp [digits] at h
  | cons c rest =>
    have hc : isDigit c = true := by simp [digits] at h; exact h.1
    have h1 : (c == '+') = false := by
      by_contra hh
      have : c = '+' := by simpa using hh
      subst this; revert hc; decide
    have h2 : (c == '-') = false := by
      by_contra hh
      have : c = '-' := by simpa using hh
      subst this; revert hc; decide
    simp only [signedDecimal, h1, h2, h, Bool.or_self, Bool.false_and, if_true]
    simp

/-- A rendered operand is a token of its value (R195, R198). -/
theorem operandValue_render (cfg : Cfg) {v : Value} (h : v.InDomain) :
    operandValue cfg v.type (renderOperand v) = some v := by
  cases v with
  | reg n =>
    have hr : inRange .register n = true := by simpa [inRange, operandTypeRom] using h
    simp only [operandValue, Value.type, renderOperand, prefixedNumber_render rfl hr, Option.map_some]
  | ram n =>
    have hr : inRange .ramAddress n = true := by
      simp only [Value.InDomain] at h
      simp [inRange, operandTypeRom]; omega
    simp only [operandValue, Value.type, renderOperand, prefixedNumber_render rfl hr, Option.map_some]
  | line n =>
    have hr : inRange .lineNumber n = true := by
      simp only [Value.InDomain] at h
      simp [inRange, operandTypeRom]; omega
    simp only [operandValue, Value.type, renderOperand, prefixedNumber_render rfl hr, Option.map_some]
  | imm v =>
    have hr : inRange .immediate v = true := by simpa [inRange, operandTypeRom] using h
    have hs : signedDecimal (renderOperand (.imm v)) = some v := by
      by_cases hv : v < 0
      · have : -((v.natAbs : Nat) : Int) = v := by omega
        simp only [renderOperand, hv, if_true, List.singleton_append, signedDecimal, digits_decimal,
          dec_decimal, Bool.and_true, this]
        rfl
      · have : ((v.natAbs : Nat) : Int) = v := by omega
        simp only [renderOperand, hv, if_false, List.nil_append]
        rw [signedDecimal_digits (digits_decimal _), dec_decimal, this]
    simp only [operandValue, Value.type, immediateNumber, hs]
    simp [Option.filter, hr]
  | sel s =>
    simp only [operandValue, Value.type, renderOperand, selectorOfToken_mnemonic, Option.map_some]

/-- The validation LUT answers bits exactly when the token has a value (R100). -/
theorem validate_ok_iff {cfg : Cfg} {t : OperandType} {tok : Text} {b : Bits} :
    validate cfg t tok = .ok b ↔ ∃ v, operandValue cfg t tok = some v ∧ b = fieldBits v := by
  unfold validate
  cases operandValue cfg t tok with
  | none => simp
  | some v => simp [eq_comm]

/-! ### Instructions and their operands -/

theorem buildInstr_operands (i : Instr) : buildInstr i.op i.operands = some i := by cases i <;> rfl

theorem buildInstr_some {op : Op} {vs : List Value} {i : Instr} (h : buildInstr op vs = some i) :
    i.op = op ∧ i.operands = vs := by
  unfold buildInstr at h
  split at h <;> first | (cases h; exact ⟨rfl, rfl⟩) | simp at h

theorem operands_types (i : Instr) : i.operands.map Value.type = (specOf i.op).schema := by cases i <;> rfl

theorem list_of_types {vs : List Value} {t : OperandType} {ts : List OperandType}
    (h : vs.map Value.type = t :: ts) : ∃ v vs', vs = v :: vs' ∧ v.type = t ∧ vs'.map Value.type = ts := by
  cases vs with
  | nil => simp at h
  | cons v vs' => simp at h; exact ⟨v, vs', rfl, h.1, h.2⟩

theorem Value.reg_of_type {v : Value} (h : v.type = .register) : ∃ n, v = .reg n := by
  cases v <;> simp [Value.type] at h ⊢

theorem Value.ram_of_type {v : Value} (h : v.type = .ramAddress) : ∃ n, v = .ram n := by
  cases v <;> simp [Value.type] at h ⊢

theorem Value.line_of_type {v : Value} (h : v.type = .lineNumber) : ∃ n, v = .line n := by
  cases v <;> simp [Value.type] at h ⊢

theorem Value.imm_of_type {v : Value} (h : v.type = .immediate) : ∃ n, v = .imm n := by
  cases v <;> simp [Value.type] at h ⊢

theorem Value.sel_of_type {v : Value} (h : v.type = .bitwiseSelector) : ∃ n, v = .sel n := by
  cases v <;> simp [Value.type] at h ⊢

/-- Values that fit an operation's schema make an instruction. -/
theorem buildInstr_of_types {op : Op} {vs : List Value} (h : vs.map Value.type = (specOf op).schema) :
    ∃ i, buildInstr op vs = some i := by
  have rrr : ∀ vs : List Value, vs.map Value.type = [.register, .register, .register] →
      ∃ a b c, vs = [.reg a, .reg b, .reg c] := by
    intro vs h
    obtain ⟨v1, w1, rfl, h1, g1⟩ := list_of_types h
    obtain ⟨v2, w2, rfl, h2, g2⟩ := list_of_types g1
    obtain ⟨v3, w3, rfl, h3, g3⟩ := list_of_types g2
    obtain ⟨a, rfl⟩ := v1.reg_of_type h1
    obtain ⟨b, rfl⟩ := v2.reg_of_type h2
    obtain ⟨c, rfl⟩ := v3.reg_of_type h3
    obtain rfl := List.map_eq_nil_iff.mp g3
    exact ⟨a, b, c, rfl⟩
  have rr : ∀ vs : List Value, vs.map Value.type = [.register, .register] → ∃ a b, vs = [.reg a, .reg b] := by
    intro vs h
    obtain ⟨v1, w1, rfl, h1, g1⟩ := list_of_types h
    obtain ⟨v2, w2, rfl, h2, g2⟩ := list_of_types g1
    obtain ⟨a, rfl⟩ := v1.reg_of_type h1
    obtain ⟨b, rfl⟩ := v2.reg_of_type h2
    obtain rfl := List.map_eq_nil_iff.mp g2
    exact ⟨a, b, rfl⟩
  have mr : ∀ vs : List Value, vs.map Value.type = [.ramAddress, .register] → ∃ a b, vs = [.ram a, .reg b] := by
    intro vs h
    obtain ⟨v1, w1, rfl, h1, g1⟩ := list_of_types h
    obtain ⟨v2, w2, rfl, h2, g2⟩ := list_of_types g1
    obtain ⟨a, rfl⟩ := v1.ram_of_type h1
    obtain ⟨b, rfl⟩ := v2.reg_of_type h2
    obtain rfl := List.map_eq_nil_iff.mp g2
    exact ⟨a, b, rfl⟩
  cases op
  case jmp =>
    obtain ⟨v1, w1, rfl, h1, g1⟩ := list_of_types h
    obtain ⟨a, rfl⟩ := v1.line_of_type h1
    obtain rfl := List.map_eq_nil_iff.mp g1
    exact ⟨_, rfl⟩
  case rst =>
    obtain ⟨v1, w1, rfl, h1, g1⟩ := list_of_types h
    obtain ⟨v2, w2, rfl, h2, g2⟩ := list_of_types g1
    obtain ⟨a, rfl⟩ := v1.reg_of_type h1
    obtain ⟨b, rfl⟩ := v2.imm_of_type h2
    obtain rfl := List.map_eq_nil_iff.mp g2
    exact ⟨_, rfl⟩
  case rcl =>
    have : vs = [] := by simpa [specOf] using h
    subst this; exact ⟨_, rfl⟩
  case cjp =>
    obtain ⟨v1, w1, rfl, h1, g1⟩ := list_of_types h
    obtain ⟨v2, w2, rfl, h2, g2⟩ := list_of_types g1
    obtain ⟨v3, w3, rfl, h3, g3⟩ := list_of_types g2
    obtain ⟨v4, w4, rfl, h4, g4⟩ := list_of_types g3
    obtain ⟨a, rfl⟩ := v1.line_of_type h1
    obtain ⟨b, rfl⟩ := v2.reg_of_type h2
    obtain ⟨c, rfl⟩ := v3.reg_of_type h3
    obtain ⟨d, rfl⟩ := v4.sel_of_type h4
    obtain rfl := List.map_eq_nil_iff.mp g4
    exact ⟨_, rfl⟩
  case rrd | not | inv => obtain ⟨a, b, rfl⟩ := rr vs h; exact ⟨_, rfl⟩
  case rld | rms => obtain ⟨a, b, rfl⟩ := mr vs h; exact ⟨_, rfl⟩
  all_goals (obtain ⟨a, b, c, rfl⟩ := rrr vs h; exact ⟨_, rfl⟩)

/-- Well-formedness is that every operand lies in its domain. -/
theorem wellFormed_iff (i : Instr) : i.WellFormed ↔ ∀ v ∈ i.operands, v.InDomain := by
  cases i <;> simp [Instr.WellFormed, Instr.wellFormed, Instr.operands, Value.InDomain]

end Sys2Proof
end

