-- ==== Sys2Proof/Laws/Decode.lean ====
section
/-! SUPPORT. What the decoder can answer, and the layout of fields in a word (30_encoding.md rules R70, R71;
43_decoder.md rule R191). -/

namespace Sys2Proof

/-- The total width of a list of operand types. -/
abbrev widthSum (ts : List OperandType) : Nat := (ts.map operandWidth).sum

theorem length_flatMap_fieldBits (vs : List Value) :
    (vs.flatMap fieldBits).length = widthSum (vs.map Value.type) := by
  induction vs with
  | nil => rfl
  | cons v vs ih => simp [widthSum] at ih ⊢; omega

/-- Every schema fits below the opcode (R71). -/
theorem schema_fits (op : Op) : widthSum (specOf op).schema ≤ 28 := by cases op <;> decide

theorem slice_split (x a b : Nat) : x % 2 ^ (a + b) / 2 ^ b = x / 2 ^ b % 2 ^ a := by
  rw [pow_add, Nat.mul_comm, Nat.mod_mul_right_div_self]

theorem slice_low (x a b : Nat) : x % 2 ^ (a + b) % 2 ^ b = x % 2 ^ b :=
  Nat.mod_mod_of_dvd _ (pow_dvd_pow 2 (by omega))

/-- A field of `a` bits above one of `b` bits is their concatenation. -/
theorem slice_join (x a b : Nat) : x % 2 ^ (a + b) = x / 2 ^ b % 2 ^ a * 2 ^ b + x % 2 ^ b := by
  rw [← slice_split, ← slice_low x a b, Nat.mul_comm, Nat.div_add_mod]

theorem shift_shift (x top a b : Nat) (h : a + b ≤ top) : x / 2 ^ (top - (a + b)) / 2 ^ b = x / 2 ^ (top - a) := by
  rw [Nat.div_div_eq_div_mul, ← pow_add]
  congr 2
  omega

/-- Fields packed below bit `top` are what the operand stage reads. -/
theorem decodeOperands_of_bits (w : Word) (vs : List Value) (top : Nat) (hd : ∀ v ∈ vs, v.InDomain)
    (hs : widthSum (vs.map Value.type) ≤ top)
    (hb : w.toNat / 2 ^ (top - widthSum (vs.map Value.type)) % 2 ^ widthSum (vs.map Value.type) =
      uint (vs.flatMap fieldBits)) :
    decodeOperands w (vs.map Value.type) top = .ok vs := by
  induction vs generalizing top with
  | nil => rfl
  | cons v vs ih =>
    simp only [List.map_cons, widthSum, List.sum_cons] at hs hb
    rw [List.flatMap_cons, uint_append, length_flatMap_fieldBits] at hb
    have hv := uint_lt (fieldBits v)
    have hr := uint_lt (vs.flatMap fieldBits)
    rw [length_fieldBits] at hv
    rw [length_flatMap_fieldBits] at hr
    simp only [widthSum] at hb hr ih
    have hfield : slice w (top - operandWidth v.type) (operandWidth v.type) = uint (fieldBits v) := by
      rw [slice_eq, ← shift_shift _ _ _ _ hs, ← slice_split, hb]
      rw [Nat.add_comm, Nat.add_mul_div_right _ _ (by positivity), Nat.div_eq_of_lt hr, Nat.zero_add]
    have hrest := congrArg (· % 2 ^ ((vs.map Value.type).map operandWidth).sum) hb
    simp only [slice_low] at hrest
    rw [Nat.mul_add_mod', Nat.mod_eq_of_lt hr] at hrest
    have htail := ih (top - operandWidth v.type) (fun u hu => hd u (by simp [hu])) (by omega)
      (by rw [Nat.sub_sub]; exact hrest)
    simp only [List.map_cons, decodeOperands, hfield, fieldValue_fieldBits (hd v (by simp)), htail]

/-- What the operand stage answers: values of the schema's types, in their domains, whose fields are the
bits that were read. -/
theorem decodeOperands_ok {w : Word} {ts : List OperandType} {top : Nat} {vs : List Value}
    (hs : widthSum ts ≤ top) (h : decodeOperands w ts top = .ok vs) :
    vs.map Value.type = ts ∧ (∀ v ∈ vs, v.InDomain) ∧
      w.toNat / 2 ^ (top - widthSum ts) % 2 ^ widthSum ts = uint (vs.flatMap fieldBits) := by
  induction ts generalizing top vs with
  | nil => simp [decodeOperands] at h; subst h; simp [widthSum, Nat.mod_one]
  | cons t ts ih =>
    simp only [widthSum, List.map_cons, List.sum_cons] at hs ih ⊢
    unfold decodeOperands at h
    split at h
    · simp at h
    · rename_i v hv
      split at h
      · rename_i vs' hvs
        simp at h; subst h
        obtain ⟨h1, h2, h3⟩ := ih (by omega) hvs
        have hlt := slice_lt w (top - operandWidth t) (operandWidth t)
        have ht := fieldValue_type hv
        refine ⟨by simp [h1, ht], ?_, ?_⟩
        · intro u hu
          rcases List.mem_cons.mp hu with rfl | hu
          · exact fieldValue_inDomain hlt hv
          · exact h2 u hu
        · rw [List.flatMap_cons, uint_append, fieldBits_fieldValue hlt hv, length_flatMap_fieldBits, h1, ← h3,
            slice_eq, ← shift_shift _ _ _ _ hs, slice_join, Nat.sub_sub]
      · simp at h

theorem opcodeField_eq (w : Word) : (opcodeField w).toNat = w.toNat / 2 ^ 28 := by
  have := w.isLt
  simp only [opcodeField, BitVec.extractLsb'_toNat, Nat.shiftRight_eq_div_pow]
  omega

/-- The opcode stage always finds its operation (R81, R192). -/
theorem lookupByOpcode_opcodeField (w : Word) :
    ∃ op, lookupByOpcode (opcodeField w) = some (specOf op) ∧ (specOf op).opcode = opcodeField w :=
  lookupByOpcode_some _

/-- What the decoder answers, inverted: a word that decodes is its instruction's opcode, its instruction's
fields, and padding. -/
theorem decodeInstr_ok {w : Word} {i : Instr} (h : decodeInstr w = .ok i) :
    (specOf i.op).opcode = opcodeField w ∧ (∀ v ∈ i.operands, v.InDomain) ∧
      w.toNat / 2 ^ (28 - widthSum (specOf i.op).schema) % 2 ^ widthSum (specOf i.op).schema =
        uint (i.operands.flatMap fieldBits) := by
  obtain ⟨op, hop, hcode⟩ := lookupByOpcode_opcodeField w
  unfold decodeInstr decodeFields at h
  rw [hop] at h
  simp only at h
  cases hd : decodeOperands w (specOf op).schema 28 with
  | error e => rw [hd] at h; simp at h
  | ok vs =>
    rw [hd] at h
    obtain ⟨h1, h2, h3⟩ := decodeOperands_ok (schema_fits op) hd
    obtain ⟨j, hj⟩ := buildInstr_of_types h1
    simp only [specOf_op, hj] at h
    cases h
    obtain ⟨rfl, rfl⟩ := buildInstr_some hj
    exact ⟨hcode, h2, h3⟩

/-- The decoder's answer, from the operand stage. -/
theorem decodeInstr_of_operands {w : Word} {i : Instr} (hc : opcodeField w = (specOf i.op).opcode)
    (hd : decodeOperands w (specOf i.op).schema 28 = .ok i.operands) : decodeInstr w = .ok i := by
  unfold decodeInstr decodeFields
  simp only [hc, lookupByOpcode_specOf, hd, specOf_op, buildInstr_operands]

/-- The text answer and the instruction answer of the decoder are one answer. -/
theorem decodeWord_eq (w : Word) :
    decodeWord w = match decodeInstr w with
      | .ok i => .ok (instrText i)
      | .error e => .error e := by
  obtain ⟨op, hop, -⟩ := lookupByOpcode_opcodeField w
  unfold decodeWord decodeInstr decodeFields
  rw [hop]
  simp only
  cases hd : decodeOperands w (specOf op).schema 28 with
  | error e => rfl
  | ok vs =>
    obtain ⟨h1, -, -⟩ := decodeOperands_ok (schema_fits op) hd
    obtain ⟨j, hj⟩ := buildInstr_of_types h1
    obtain ⟨rfl, rfl⟩ := buildInstr_some hj
    simp only [specOf_op, buildInstr_operands, instrText]

/-- The operand stage has one failure. -/
theorem decodeOperands_error {w : Word} {ts : List OperandType} {top : Nat} {e : DecodeFail}
    (h : decodeOperands w ts top = .error e) : e = .unknownSelectorBits := by
  induction ts generalizing top with
  | nil => simp [decodeOperands] at h
  | cons t ts ih =>
    unfold decodeOperands at h
    split at h
    · simp at h; exact h.symm
    · split at h
      · simp at h
      · rename_i e' he
        simp at h; subst h; exact ih he

/-- A type other than the selector always has a value. -/
theorem fieldValue_isSome {t : OperandType} (h : t ≠ .bitwiseSelector) (f : Nat) :
    ∃ v, fieldValue t f = some v := by
  cases t <;> simp [fieldValue] at h ⊢

theorem decodeOperands_isOk {ts : List OperandType} (h : .bitwiseSelector ∉ ts) (w : Word) (top : Nat) :
    ∃ vs, decodeOperands w ts top = .ok vs := by
  induction ts generalizing top with
  | nil => exact ⟨_, rfl⟩
  | cons t ts ih =>
    obtain ⟨v, hv⟩ := fieldValue_isSome (t := t) (by rintro rfl; simp at h)
      (slice w (top - operandWidth t) (operandWidth t))
    obtain ⟨vs, hvs⟩ := ih (by intro hh; exact h (by simp [hh])) (top - operandWidth t)
    exact ⟨v :: vs, by simp only [decodeOperands, hv, hvs]⟩

/-- The encoded word as a number: opcode, fields, padding (R70). -/
theorem encodeInstr_toNat (i : Instr) :
    (encodeInstr i).toNat =
      ((specOf i.op).opcode.toNat * 2 ^ widthSum (specOf i.op).schema + uint (i.operands.flatMap fieldBits)) *
        2 ^ (28 - widthSum (specOf i.op).schema) := by
  have hl := length_flatMap_fieldBits i.operands
  rw [operands_types] at hl
  have hs := schema_fits i.op
  have hc : (specOf i.op).opcode.toNat < 2 ^ 4 := (specOf i.op).opcode.isLt
  rw [encodeInstr, packWord_toNat (by simp [hl, opcodeWidth]; omega), uint_append,
    uint_bin_of_lt hc, hl]
  simp only [List.length_append, length_bin, hl, opcodeWidth]
  congr 2
  omega

end Sys2Proof
end

