-- ==== Sys2Proof/Laws/Lexer.lean ====
section
/-! SUPPORT. The laws of tokenizing (42_encoder.md rule R162) and of the configuration's whitespace set. -/

namespace Sys2Proof

@[simp] theorem tokens_nil (ws : Char → Bool) : tokens ws [] = [] := rfl

@[simp] theorem tokens_space {ws : Char → Bool} {c : Char} (h : ws c = true) (cs : Text) :
    tokens ws (c :: cs) = tokens ws cs := by simp [tokens, h]

/-- Every token is a non-empty run of non-whitespace characters. -/
theorem tokens_mem {ws : Char → Bool} {line t : Text} (h : t ∈ tokens ws line) :
    t ≠ [] ∧ ∀ c ∈ t, ws c = false := by
  induction line generalizing t with
  | nil => simp at h
  | cons c cs ih =>
    unfold tokens at h
    split at h
    · exact ih h
    · rename_i hc
      have hc' : ws c = false := by simpa using hc
      split at h
      · rename_i d ds u us heq
        have hu : u ∈ tokens ws (d :: ds) := by simp [heq]
        split at h
        · rcases List.mem_cons.mp h with rfl | h
          · simp [hc']
          · exact ih (by rw [heq]; exact h)
        · rcases List.mem_cons.mp h with rfl | h
          · refine ⟨by simp, ?_⟩
            intro x hx
            rcases List.mem_cons.mp hx with rfl | hx
            · exact hc'
            · exact (ih hu).2 x hx
          · exact ih (by rw [heq]; exact List.mem_cons_of_mem _ h)
      · rw [List.mem_singleton] at h
        subst h
        simp [hc']

/-- A run of non-whitespace characters that ends the line or stands before whitespace is one token. -/
theorem tokens_word {ws : Char → Bool} (t rest : Text) (ht : t ≠ []) (hw : ∀ c ∈ t, ws c = false)
    (hr : ∀ c ∈ rest.head?, ws c = true) : tokens ws (t ++ rest) = t :: tokens ws rest := by
  induction t with
  | nil => exact absurd rfl ht
  | cons c t ih =>
    have hc : ws c = false := hw c (by simp)
    cases t with
    | nil =>
      cases rest with
      | nil => simp [tokens, hc]
      | cons d rest =>
        have hd : ws d = true := hr d (by simp)
        simp only [List.singleton_append, tokens, hc, hd, if_true]
        cases tokens ws rest <;> simp [hd]
    | cons d t =>
      have hd : ws d = false := hw d (by simp)
      have hi := ih (by simp) (fun x hx => hw x (by simp at hx ⊢; tauto))
      rw [List.cons_append] at hi
      simp only [List.cons_append, tokens, hc, Bool.false_eq_true, if_false]
      simp only [tokens] at hi
      rw [hi]
      simp [hd]

/-- No character of a line is lost but whitespace. -/
theorem tokens_flatten (ws : Char → Bool) (line : Text) :
    (tokens ws line).flatten = line.filter (fun c => !ws c) := by
  induction line with
  | nil => rfl
  | cons c cs ih =>
    unfold tokens
    by_cases hc : ws c = true
    · simp [hc, ih]
    · have hc' : ws c = false := by simpa using hc
      rw [List.filter_cons_of_pos (by simp [hc']), ← ih]
      cases cs with
      | nil => simp [hc']
      | cons d ds =>
        cases htok : tokens ws (d :: ds) with
        | nil => simp [hc']
        | cons u us => by_cases hd : ws d = true <;> simp [hc', hd]

/-- Every whitespace predicate is that of some configuration's list: characters are finitely many. -/
theorem Cfg.every_isWs_has_a_list (f : Char → Bool) (marker : Option Char) (fold : Bool) :
    ∃ ws, ∀ c, (Cfg.mk marker fold ws).isWs c = f c := by
  refine ⟨((List.range 0x110000).map Char.ofNat).filter f, fun c => ?_⟩
  have hlt : c.toNat < 0x110000 := by
    rcases c.valid with h | h
    · have : c.val.toNat < 0xd800 := h
      show c.val.toNat < _
      omega
    · exact h.2
  have hmem : c ∈ (List.range 0x110000).map Char.ofNat :=
    List.mem_map.mpr ⟨c.toNat, List.mem_range.mpr hlt, Char.ofNat_toNat c⟩
  cases hf : f c
  · simp [Cfg.isWs, List.contains_eq_mem, hf]
  · simp only [Cfg.isWs, List.contains_eq_mem, decide_eq_true_eq]
    exact List.mem_filter.mpr ⟨hmem, hf⟩

end Sys2Proof
end

