-- ==== Sys2Proof/Laws/Encoder.lean ====
section
/-! SUPPORT. What the encoder can answer (42_encoder.md rule R161), said once. -/

namespace Sys2Proof

/-- The steps before the operands do not depend on the line number but for the diagnostic's `line`. -/
theorem frontEnd_ok {cfg : Cfg} {line : Text} {n m : Nat} {x : OperationSpec × List Text}
    (h : frontEnd cfg line n = .ok x) : frontEnd cfg line m = .ok x := by
  unfold frontEnd at h ⊢
  cases ht : lineTokens cfg line with
  | nil => simp [ht] at h
  | cons t ops =>
    cases hl : lookup cfg t with
    | none => simp [ht, hl] at h
    | some spec =>
      simp only [ht, hl] at h ⊢
      split at h
      · rename_i hlen; simp only [hlen, if_true]; exact h
      · simp at h

/-- An accepted front end: a registry row, and as many operand tokens as its schema has types. -/
theorem frontEnd_ok_spec {cfg : Cfg} {line : Text} {n : Nat} {spec : OperationSpec} {ops : List Text}
    (h : frontEnd cfg line n = .ok (spec, ops)) :
    spec = specOf spec.op ∧ ops.length = spec.schema.length := by
  unfold frontEnd at h
  cases ht : lineTokens cfg line with
  | nil => simp [ht] at h
  | cons t ops' =>
    simp only [ht] at h
    cases hl : lookup cfg t with
    | none => simp [hl] at h
    | some spec' =>
      simp only [hl] at h
      split at h
      · rename_i hlen
        simp only [Except.ok.injEq, Prod.mk.injEq] at h
        obtain ⟨rfl, rfl⟩ := h
        exact ⟨(lookup_some hl).1, hlen⟩
      · simp at h

theorem frontEnd_error {cfg : Cfg} {line : Text} {n : Nat} {d : Diagnostic}
    (h : frontEnd cfg line n = .error d) (m : Nat) :
    d.line = n ∧ frontEnd cfg line m = .error { d with line := m } := by
  unfold frontEnd at h ⊢
  cases ht : lineTokens cfg line with
  | nil => simp [ht] at h ⊢; subst h; simp
  | cons t ops =>
    cases hl : lookup cfg t with
    | none => simp [ht, hl] at h ⊢; subst h; simp
    | some spec =>
      simp only [ht, hl] at h ⊢
      split at h
      · simp at h
      · rename_i hlen; simp [hlen] at h ⊢; subst h; simp

theorem operandDiagnostics_line {cfg : Cfg} {n : Nat} {ts : List OperandType} {toks : List Text}
    {d : Diagnostic} (h : d ∈ operandDiagnostics cfg n ts toks) : d.line = n := by
  induction ts generalizing toks with
  | nil => simp [operandDiagnostics] at h
  | cons t ts ih =>
    cases toks with
    | nil => simp [operandDiagnostics] at h
    | cons tok toks =>
      unfold operandDiagnostics at h
      split at h
      · exact ih h
      · rcases List.mem_cons.mp h with rfl | h
        · rfl
        · exact ih h

theorem operandDiagnostics_setLine (cfg : Cfg) (n m : Nat) (ts : List OperandType) (toks : List Text) :
    operandDiagnostics cfg m ts toks =
      (operandDiagnostics cfg n ts toks).map fun d => { d with line := m } := by
  induction ts generalizing toks with
  | nil => simp [operandDiagnostics]
  | cons t ts ih =>
    cases toks with
    | nil => simp [operandDiagnostics]
    | cons tok toks =>
      unfold operandDiagnostics
      cases validate cfg t tok <;> simp [ih toks]

theorem operandDiagnostics_length (cfg : Cfg) (n : Nat) (ts : List OperandType) (toks : List Text) :
    (operandDiagnostics cfg n ts toks).length ≤ ts.length := by
  induction ts generalizing toks with
  | nil => simp [operandDiagnostics]
  | cons t ts ih =>
    cases toks with
    | nil => simp [operandDiagnostics]
    | cons tok toks =>
      have := ih toks
      unfold operandDiagnostics
      cases validate cfg t tok <;> simp <;> omega

/-- With no failing operand, the operand tokens have values, of the schema's types and in their domains,
and the bits are their fields. -/
theorem operands_valid {cfg : Cfg} {n : Nat} {ts : List OperandType} {toks : List Text}
    (hl : toks.length = ts.length) (h : operandDiagnostics cfg n ts toks = []) :
    ∃ vs, operandValues cfg ts toks = some vs ∧ operandBits cfg ts toks = vs.flatMap fieldBits ∧
      vs.map Value.type = ts ∧ ∀ v ∈ vs, v.InDomain := by
  induction ts generalizing toks with
  | nil =>
    cases toks with
    | nil => exact ⟨[], rfl, rfl, rfl, by simp⟩
    | cons _ _ => simp at hl
  | cons t ts ih =>
    cases toks with
    | nil => simp at hl
    | cons tok toks =>
      unfold operandDiagnostics at h
      split at h
      · rename_i b hb
        obtain ⟨v, hv, rfl⟩ := validate_ok_iff.mp hb
        obtain ⟨vs, h1, h2, h3, h4⟩ := ih (by simpa using hl) h
        obtain ⟨ht, hd⟩ := operandValue_some hv
        refine ⟨v :: vs, by simp only [operandValues, hv, h1], ?_, by simp [ht, h3], ?_⟩
        · simp [operandBits, hb, h2]
        · intro u hu
          rcases List.mem_cons.mp hu with rfl | hu
          · exact hd
          · exact h4 u hu
      · simp at h

/-- With a failing operand, there is no list of values. -/
theorem operands_invalid {cfg : Cfg} {n : Nat} {ts : List OperandType} {toks : List Text}
    (h : operandDiagnostics cfg n ts toks ≠ []) : operandValues cfg ts toks = none := by
  induction ts generalizing toks with
  | nil => simp [operandDiagnostics] at h
  | cons t ts ih =>
    cases toks with
    | nil => simp [operandDiagnostics] at h
    | cons tok toks =>
      unfold operandDiagnostics at h
      cases hv : operandValue cfg t tok with
      | none => simp only [operandValues, hv]
      | some v =>
        have : validate cfg t tok = .ok (fieldBits v) := by simp [validate, hv]
        rw [this] at h
        simp only [operandValues, hv, ih h]

/-- An accepted line: its word is its instruction's, whatever the line number, and it gives no diagnostic. -/
theorem encode_of_some {cfg : Cfg} {line : Text} {i : Instr} (h : lineInstr cfg line = some i) (n : Nat) :
    encode cfg line n = (.valid (encodeInstr i), []) ∧ i.WellFormed := by
  unfold lineInstr at h
  cases hf : frontEnd cfg line 0 with
  | error d => simp [hf] at h
  | ok x =>
    obtain ⟨spec, ops⟩ := x
    simp only [hf] at h
    obtain ⟨hspec, hlen⟩ := frontEnd_ok_spec hf
    obtain ⟨vs, hvs, hb⟩ := Option.bind_eq_some_iff.mp h
    have hd : operandDiagnostics cfg n spec.schema ops = [] := by
      by_contra hne
      rw [operands_invalid hne] at hvs
      simp at hvs
    obtain ⟨vs', h1, h2, h3, h4⟩ := operands_valid hlen hd
    rw [hvs, Option.some.injEq] at h1
    subst h1
    obtain ⟨hop, hops⟩ := buildInstr_some hb
    constructor
    · unfold encode
      rw [frontEnd_ok hf]
      simp only [hd, h2]
      rw [encodeInstr, hops, hop, ← hspec]
    · rw [wellFormed_iff, hops]
      exact h4

/-- Any other line: Invalid, with at least one diagnostic, every one of them of this line. -/
theorem encode_of_none {cfg : Cfg} {line : Text} (h : lineInstr cfg line = none) (n : Nat) :
    (encode cfg line n).1 = .invalid ∧ (encode cfg line n).2 ≠ [] ∧
      ∀ d ∈ (encode cfg line n).2, d.line = n := by
  unfold encode
  cases hf : frontEnd cfg line n with
  | error d => simp [(frontEnd_error hf n).1]
  | ok x =>
    obtain ⟨spec, ops⟩ := x
    obtain ⟨hspec, hlen⟩ := frontEnd_ok_spec hf
    simp only
    cases hd : operandDiagnostics cfg n spec.schema ops with
    | cons d ds =>
      refine ⟨rfl, by simp, ?_⟩
      intro e he
      exact operandDiagnostics_line (cfg := cfg) (ts := spec.schema) (toks := ops) (by rw [hd]; exact he)
    | nil =>
      obtain ⟨vs, h1, -, h3, -⟩ := operands_valid hlen hd
      rw [hspec] at h3
      obtain ⟨i, hi⟩ := buildInstr_of_types h3
      simp [lineInstr, frontEnd_ok hf, h1, hi] at h

/-- The encoder's answer is `Valid` exactly on the lines that denote an instruction. -/
theorem encode_valid_iff {cfg : Cfg} {line : Text} {n : Nat} {w : Word} {ds : List Diagnostic} :
    encode cfg line n = (.valid w, ds) ↔ ∃ i, lineInstr cfg line = some i ∧ w = encodeInstr i ∧ ds = [] := by
  cases h : lineInstr cfg line with
  | none =>
    have hn := (encode_of_none h n).1
    constructor
    · intro he; rw [he] at hn; simp at hn
    · simp
  | some i => simp [(encode_of_some h n).1, eq_comm]

theorem lineInstr_wellFormed {cfg : Cfg} {line : Text} {i : Instr} (h : lineInstr cfg line = some i) :
    i.WellFormed := (encode_of_some h 0).2

end Sys2Proof
end

