-- ==== Sys2Proof/Laws/Formats.lean ====
section
/-! SUPPORT. The formats as numbers: a field placed at bit `lo` adds `v * 2^lo`, since the fields of a format
do not overlap (30_encoding.md rules R72 to R78). -/

namespace Sys2Proof.Machine

theorem place_eq (lo v : Nat) : place lo v = BitVec.ofNat 32 (v <<< lo) := by
  apply BitVec.eq_of_toNat_eq
  simp only [place, BitVec.toNat_shiftLeft, BitVec.toNat_ofNat, Nat.shiftLeft_eq]
  rw [Nat.mod_mul_mod]

/-- Two placed fields are one number, if the lower one ends below the upper one's lowest bit. -/
theorem or_ofNat_add {x y k : Nat} (hy : y < 2 ^ k) :
    BitVec.ofNat 32 (x <<< k) ||| BitVec.ofNat 32 y = BitVec.ofNat 32 (x <<< k + y) := by
  rw [← BitVec.ofNat_or, Nat.shiftLeft_add_eq_or_of_lt hy]

theorem wordRRR_eq (op a b c : Nat) : wordRRR op a b c =
    BitVec.ofNat 32 ((op <<< 28) ||| (a <<< 24) ||| (b <<< 20) ||| (c <<< 16)) := by
  simp only [wordRRR, place_eq, BitVec.ofNat_or]

theorem wordL_eq (op l : Nat) : wordL op l = BitVec.ofNat 32 ((op <<< 28) ||| (l <<< 12)) := by
  simp only [wordL, place_eq, BitVec.ofNat_or]

theorem wordLRRS_eq (op l a b sel : Nat) : wordLRRS op l a b sel =
    BitVec.ofNat 32 ((op <<< 28) ||| (l <<< 12) ||| (a <<< 8) ||| (b <<< 4) ||| sel) := by
  simp only [wordLRRS, place_eq, BitVec.ofNat_or, Nat.shiftLeft_zero]

theorem wordRI_eq (op a : Nat) (v : Int) : wordRI op a v =
    BitVec.ofNat 32 ((op <<< 28) ||| (a <<< 24) ||| ((v % 65536).toNat <<< 8)) := by
  simp only [wordRI, place_eq, BitVec.ofNat_or]

theorem wordRR_eq (op a b : Nat) : wordRR op a b =
    BitVec.ofNat 32 ((op <<< 28) ||| (a <<< 24) ||| (b <<< 20)) := by
  simp only [wordRR, place_eq, BitVec.ofNat_or]

theorem wordN_eq (op : Nat) : wordN op = BitVec.ofNat 32 (op <<< 28) := place_eq 28 op

theorem wordMR_eq (op m a : Nat) : wordMR op m a =
    BitVec.ofNat 32 ((op <<< 28) ||| (m <<< 20) ||| (a <<< 16)) := by
  simp only [wordMR, place_eq, BitVec.ofNat_or]

/-- A number with a field or-ed in below its lowest set bit is a sum. -/
theorem or_shift_add {x y k : Nat} (hx : x % 2 ^ k = 0) (hy : y < 2 ^ k) : x ||| y = x + y := by
  obtain ⟨q, rfl⟩ := Nat.dvd_of_mod_eq_zero hx
  rw [Nat.mul_comm, ← Nat.shiftLeft_eq, Nat.shiftLeft_add_eq_or_of_lt hy]

/-- The word of format `RRR` as a number. -/
theorem wordRRR_toNat {op a b c : Nat} (ho : op < 16) (ha : a < 16) (hb : b < 16) (hc : c < 16) :
    (wordRRR op a b c).toNat = op * 2 ^ 28 + a * 2 ^ 24 + b * 2 ^ 20 + c * 2 ^ 16 := by
  rw [wordRRR_eq, BitVec.toNat_ofNat]
  simp only [Nat.shiftLeft_eq]
  rw [or_shift_add (x := op * 2 ^ 28) (k := 28) (by omega) (by omega),
    or_shift_add (x := op * 2 ^ 28 + a * 2 ^ 24) (k := 24) (by omega) (by omega),
    or_shift_add (x := op * 2 ^ 28 + a * 2 ^ 24 + b * 2 ^ 20) (k := 20) (by omega) (by omega)]
  omega

theorem wordL_toNat {op l : Nat} (ho : op < 16) (hl : l < 65536) :
    (wordL op l).toNat = op * 2 ^ 28 + l * 2 ^ 12 := by
  rw [wordL_eq, BitVec.toNat_ofNat]
  simp only [Nat.shiftLeft_eq]
  rw [or_shift_add (k := 28) (by omega) (by omega)]
  omega

theorem wordLRRS_toNat {op l a b sel : Nat} (ho : op < 16) (hl : l < 65536) (ha : a < 16) (hb : b < 16)
    (hs : sel < 16) :
    (wordLRRS op l a b sel).toNat = op * 2 ^ 28 + l * 2 ^ 12 + a * 2 ^ 8 + b * 2 ^ 4 + sel := by
  rw [wordLRRS_eq, BitVec.toNat_ofNat]
  simp only [Nat.shiftLeft_eq]
  rw [or_shift_add (x := op * 2 ^ 28) (k := 28) (by omega) (by omega),
    or_shift_add (x := op * 2 ^ 28 + l * 2 ^ 12) (k := 12) (by omega) (by omega),
    or_shift_add (x := op * 2 ^ 28 + l * 2 ^ 12 + a * 2 ^ 8) (k := 8) (by omega) (by omega),
    or_shift_add (x := op * 2 ^ 28 + l * 2 ^ 12 + a * 2 ^ 8 + b * 2 ^ 4) (k := 4) (by omega) (by omega)]
  omega

theorem wordRI_toNat {op a : Nat} (v : Int) (ho : op < 16) (ha : a < 16) :
    (wordRI op a v).toNat = op * 2 ^ 28 + a * 2 ^ 24 + (v % 65536).toNat * 2 ^ 8 := by
  rw [wordRI_eq, BitVec.toNat_ofNat]
  simp only [Nat.shiftLeft_eq]
  rw [or_shift_add (x := op * 2 ^ 28) (k := 28) (by omega) (by omega),
    or_shift_add (x := op * 2 ^ 28 + a * 2 ^ 24) (k := 24) (by omega) (by omega)]
  omega

theorem wordRR_toNat {op a b : Nat} (ho : op < 16) (ha : a < 16) (hb : b < 16) :
    (wordRR op a b).toNat = op * 2 ^ 28 + a * 2 ^ 24 + b * 2 ^ 20 := by
  rw [wordRR_eq, BitVec.toNat_ofNat]
  simp only [Nat.shiftLeft_eq]
  rw [or_shift_add (x := op * 2 ^ 28) (k := 28) (by omega) (by omega),
    or_shift_add (x := op * 2 ^ 28 + a * 2 ^ 24) (k := 24) (by omega) (by omega)]
  omega

theorem wordN_toNat {op : Nat} (ho : op < 16) : (wordN op).toNat = op * 2 ^ 28 := by
  rw [wordN_eq, BitVec.toNat_ofNat, Nat.shiftLeft_eq]
  omega

theorem wordMR_toNat {op m a : Nat} (ho : op < 16) (hm : m < 256) (ha : a < 16) :
    (wordMR op m a).toNat = op * 2 ^ 28 + m * 2 ^ 20 + a * 2 ^ 16 := by
  rw [wordMR_eq, BitVec.toNat_ofNat]
  simp only [Nat.shiftLeft_eq]
  rw [or_shift_add (x := op * 2 ^ 28) (k := 28) (by omega) (by omega),
    or_shift_add (x := op * 2 ^ 28 + m * 2 ^ 20) (k := 20) (by omega) (by omega)]
  omega

/-- The model's decimal is the base-10 digit string. -/
theorem decimalWith_eq (fuel n : Nat) (acc : Text) (h : n < fuel) :
    decimalWith fuel n acc = Nat.toDigitsCore 10 fuel n acc := by
  have hd : ∀ k < 10, digitChar k = Nat.digitChar k := by decide
  induction fuel generalizing n acc with
  | zero => omega
  | succ fuel ih =>
    unfold decimalWith Nat.toDigitsCore
    by_cases hn : n < 10
    · have h1 : n / 10 = 0 := Nat.div_eq_of_lt hn
      simp [hn, h1, hd n hn, Nat.mod_eq_of_lt hn]
    · have h1 : n / 10 ≠ 0 := by omega
      have h2 : n % 10 < 10 := Nat.mod_lt _ (by norm_num)
      simp only [hn, if_false, h1, hd _ h2]
      exact ih _ _ (by omega)

end Sys2Proof.Machine
end

