-- ==== Sys2Proof/Laws/State.lean ====
section
/-! SUPPORT. One lemma per field per update of the state. -/

namespace Sys2Proof.Machine

@[simp] theorem State.answer_cfg (s : State) (a : Answer) : (s.answer a).cfg = s.cfg := rfl
@[simp] theorem State.answer_lineCtr (s : State) (a : Answer) : (s.answer a).lineCtr = s.lineCtr := rfl
@[simp] theorem State.answer_diagLog (s : State) (a : Answer) : (s.answer a).diagLog = s.diagLog := rfl
@[simp] theorem State.answer_results (s : State) (a : Answer) : (s.answer a).results = s.results := rfl
@[simp] theorem State.answer_requests (s : State) (a : Answer) : (s.answer a).requests = s.requests.tail := rfl
@[simp] theorem State.answer_answers (s : State) (a : Answer) : (s.answer a).answers = s.answers ++ [a] := rfl

@[simp] theorem State.recordLine_cfg (s : State) (r : LineResult) (ds : List Diagnostic) : (s.recordLine r ds).cfg = s.cfg := rfl
@[simp] theorem State.recordLine_lineCtr (s : State) (r : LineResult) (ds : List Diagnostic) : (s.recordLine r ds).lineCtr = s.lineCtr + 1 := rfl
@[simp] theorem State.recordLine_diagLog (s : State) (r : LineResult) (ds : List Diagnostic) : (s.recordLine r ds).diagLog = s.diagLog ++ ds := rfl
@[simp] theorem State.recordLine_results (s : State) (r : LineResult) (ds : List Diagnostic) : (s.recordLine r ds).results = s.results ++ [r] := rfl
@[simp] theorem State.recordLine_requests (s : State) (r : LineResult) (ds : List Diagnostic) : (s.recordLine r ds).requests = s.requests.tail := rfl
@[simp] theorem State.recordLine_answers (s : State) (r : LineResult) (ds : List Diagnostic) : (s.recordLine r ds).answers = s.answers ++ [.line r] := rfl

@[simp] theorem State.clearBatch_cfg (s : State) : (s.clearBatch).cfg = s.cfg := rfl
@[simp] theorem State.clearBatch_lineCtr (s : State) : (s.clearBatch).lineCtr = 0 := rfl
@[simp] theorem State.clearBatch_diagLog (s : State) : (s.clearBatch).diagLog = [] := rfl
@[simp] theorem State.clearBatch_results (s : State) : (s.clearBatch).results = [] := rfl
@[simp] theorem State.clearBatch_requests (s : State) : (s.clearBatch).requests = s.requests := rfl
@[simp] theorem State.clearBatch_answers (s : State) : (s.clearBatch).answers = s.answers := rfl

@[simp] theorem State.resetBatch_cfg (s : State) : (s.resetBatch).cfg = s.cfg := rfl
@[simp] theorem State.resetBatch_lineCtr (s : State) : (s.resetBatch).lineCtr = 0 := rfl
@[simp] theorem State.resetBatch_diagLog (s : State) : (s.resetBatch).diagLog = [] := rfl
@[simp] theorem State.resetBatch_results (s : State) : (s.resetBatch).results = [] := rfl
@[simp] theorem State.resetBatch_requests (s : State) : (s.resetBatch).requests = s.requests.tail := rfl
@[simp] theorem State.resetBatch_answers (s : State) : (s.resetBatch).answers = s.answers := rfl

@[simp] theorem State.newBatch_cfg (s : State) (c : Cfg) : (s.newBatch c).cfg = c := rfl
@[simp] theorem State.newBatch_lineCtr (s : State) (c : Cfg) : (s.newBatch c).lineCtr = 0 := rfl
@[simp] theorem State.newBatch_diagLog (s : State) (c : Cfg) : (s.newBatch c).diagLog = [] := rfl
@[simp] theorem State.newBatch_results (s : State) (c : Cfg) : (s.newBatch c).results = [] := rfl
@[simp] theorem State.newBatch_requests (s : State) (c : Cfg) : (s.newBatch c).requests = s.requests.tail := rfl
@[simp] theorem State.newBatch_answers (s : State) (c : Cfg) : (s.newBatch c).answers = s.answers := rfl

@[simp] theorem State.startEncodeBatch_cfg (s : State) (lines : List Text) : (s.startEncodeBatch lines).cfg = s.cfg := rfl
@[simp] theorem State.startEncodeBatch_lineCtr (s : State) (lines : List Text) : (s.startEncodeBatch lines).lineCtr = s.lineCtr := rfl
@[simp] theorem State.startEncodeBatch_diagLog (s : State) (lines : List Text) : (s.startEncodeBatch lines).diagLog = s.diagLog := rfl
@[simp] theorem State.startEncodeBatch_results (s : State) (lines : List Text) : (s.startEncodeBatch lines).results = s.results := rfl
@[simp] theorem State.startEncodeBatch_requests (s : State) (lines : List Text) : (s.startEncodeBatch lines).requests = .resetBatch :: (lines.map .encodeLine ++ .readBatch :: s.requests.tail) := rfl
@[simp] theorem State.startEncodeBatch_answers (s : State) (lines : List Text) : (s.startEncodeBatch lines).answers = s.answers := rfl

@[simp] theorem State.startDecodeBatch_cfg (s : State) (words : List Word) : (s.startDecodeBatch words).cfg = s.cfg := rfl
@[simp] theorem State.startDecodeBatch_lineCtr (s : State) (words : List Word) : (s.startDecodeBatch words).lineCtr = s.lineCtr := rfl
@[simp] theorem State.startDecodeBatch_diagLog (s : State) (words : List Word) : (s.startDecodeBatch words).diagLog = s.diagLog := rfl
@[simp] theorem State.startDecodeBatch_results (s : State) (words : List Word) : (s.startDecodeBatch words).results = s.results := rfl
@[simp] theorem State.startDecodeBatch_requests (s : State) (words : List Word) : (s.startDecodeBatch words).requests = words.map .decodeWord ++ s.requests.tail := rfl
@[simp] theorem State.startDecodeBatch_answers (s : State) (words : List Word) : (s.startDecodeBatch words).answers = s.answers := rfl

@[simp] theorem presentWord_cfg (s : State) (w : Word) : (presentWord s w).cfg = s.cfg := rfl
@[simp] theorem presentWord_lineCtr (s : State) (w : Word) : (presentWord s w).lineCtr = s.lineCtr := rfl
@[simp] theorem presentWord_diagLog (s : State) (w : Word) : (presentWord s w).diagLog = s.diagLog := rfl
@[simp] theorem presentWord_results (s : State) (w : Word) : (presentWord s w).results = s.results := rfl
@[simp] theorem presentWord_requests (s : State) (w : Word) : (presentWord s w).requests = .decodeWord w :: s.requests := rfl
@[simp] theorem presentWord_answers (s : State) (w : Word) : (presentWord s w).answers = s.answers := rfl

end Sys2Proof.Machine
end

