-- ==== Sys2Proof/Laws/Ops.lean ====
section
/-! SUPPORT. What each shared operation, a meaning and a step can do, said once. -/

namespace Sys2Proof.Machine

@[simp] theorem convert_decoding {s : State} (h : s.isDecoding = true) (w : Word) (t : Text) :
    convert w t s = .next (s.answer (.text t)) := by simp [convert, h]

@[simp] theorem convert_encoding {s : State} (h : s.isDecoding = false) (w : Word) (t : Text) :
    convert w t s = .next (s.emitWord w) := by simp [convert, h]

/-- A meaning passes one word and one text through the block, and the state plays no part in either. -/
theorem exec_converts (i : Instr) : ∃ w t, ∀ s, exec i s = convert w t s := by
  cases i <;> exact ⟨_, _, fun _ => rfl⟩

/-- A meaning always answers a next state. -/
theorem exec_next (i : Instr) (s : State) : ∃ t, exec i s = .next t := by
  obtain ⟨w, t, h⟩ := exec_converts i
  exact ⟨_, h s⟩

/-- While a `DECODE_WORD` is served, a meaning only answers a text. -/
theorem exec_decoding (i : Instr) {s : State} (h : s.isDecoding = true) :
    ∃ t, exec i s = .next (s.answer (.text t)) := by
  obtain ⟨w, t, he⟩ := exec_converts i
  exact ⟨t, by rw [he, convert_decoding h]⟩

/-- Otherwise it emits a word. -/
theorem exec_encoding (i : Instr) {s : State} (h : s.isDecoding = false) :
    ∃ w, exec i s = .next (s.recordLine (.valid w) []) := by
  obtain ⟨w, t, he⟩ := exec_converts i
  exact ⟨w, by rw [he, convert_encoding h]; rfl⟩

theorem decodeInstr_error {w : Word} {e : DecodeFail} (h : decodeInstr w = .error e) :
    e = .unknownSelectorBits := by
  obtain ⟨op, hop, -⟩ := lookupByOpcode_opcodeField w
  unfold decodeInstr decodeFields at h
  rw [hop] at h
  simp only at h
  cases hd : decodeOperands w (specOf op).schema 28 with
  | error e' =>
    rw [hd] at h
    simp only [Except.error.injEq] at h
    rw [← h]
    exact decodeOperands_error hd
  | ok vs =>
    obtain ⟨h1, -, -⟩ := decodeOperands_ok (schema_fits op) hd
    obtain ⟨j, hj⟩ := buildInstr_of_types h1
    simp [hd, hj] at h

/-- What a step can do: one of these, by the operation at the head of the queue. Every step answers. -/
theorem step_cases (s : State) :
    (s.requests = [] ∧ step s = .next s) ∨
    (∃ line rest r ds, s.requests = .encodeLine line :: rest ∧ step s = .next (s.recordLine r ds) ∧
      ((∃ i w, lineInstr s.cfg line = some i ∧ r = .valid w ∧ ds = []) ∨
        (lineInstr s.cfg line = none ∧ r = .invalid ∧ ds = (encode s.cfg line (s.lineCtr + 1)).2))) ∨
    (∃ r rest, s.requests = r :: rest ∧ (∀ line, r ≠ .encodeLine line) ∧ ∃ a, step s = .next (s.answer a)) ∨
    (∃ rest, s.requests = .resetBatch :: rest ∧ step s = .next s.resetBatch) ∨
    (∃ c rest, s.requests = .newBatch c :: rest ∧ step s = .next (s.newBatch c)) ∨
    (∃ lines rest, s.requests = .encodeBatch lines :: rest ∧ step s = .next (s.startEncodeBatch lines)) ∨
    (∃ words rest, s.requests = .decodeBatch words :: rest ∧ step s = .next (s.startDecodeBatch words)) := by
  cases hr : s.requests with
  | nil => left; simp [step, hr, idle]
  | cons r rest =>
    right
    have hstep : step s = serve r s := by simp [step, hr]
    cases r with
    | encodeLine line =>
      left
      cases hi : lineInstr s.cfg line with
      | none =>
        exact ⟨line, rest, .invalid, _, rfl, by rw [hstep]; simp only [serve, serveEncodeLine, hi]; rfl,
          Or.inr ⟨hi, rfl, rfl⟩⟩
      | some i =>
        obtain ⟨w, hw⟩ := exec_encoding i (s := s) (by simp [State.isDecoding, hr])
        exact ⟨line, rest, .valid w, [], rfl, by rw [hstep]; simp only [serve, serveEncodeLine, hi, hw],
          Or.inl ⟨i, w, hi, rfl, rfl⟩⟩
    | decodeWord w =>
      right; left
      refine ⟨_, rest, rfl, by simp, ?_⟩
      rw [hstep]
      cases hd : decodeInstr w with
      | ok i =>
        obtain ⟨t, ht⟩ := exec_decoding i (s := s) (by simp [State.isDecoding, hr])
        exact ⟨.text t, by simp only [serve, serveDecodeWord, hd, ht]⟩
      | error e =>
        obtain rfl := decodeInstr_error hd
        exact ⟨.decodeFailed .unknownSelectorBits, by simp only [serve, serveDecodeWord, hd]⟩
    | resetBatch => right; right; left; exact ⟨rest, rfl, hstep⟩
    | newBatch c => right; right; right; left; exact ⟨c, rest, rfl, hstep⟩
    | encodeBatch lines => right; right; right; right; left; exact ⟨lines, rest, rfl, hstep⟩
    | decodeBatch words => right; right; right; right; right; exact ⟨words, rest, rfl, hstep⟩
    | lookup m => right; left; exact ⟨_, rest, rfl, by simp, _, hstep⟩
    | lookupByOpcode b => right; left; exact ⟨_, rest, rfl, by simp, _, hstep⟩
    | encode line n => right; left; exact ⟨_, rest, rfl, by simp, _, hstep⟩
    | readBatch => right; left; exact ⟨_, rest, rfl, by simp, _, hstep⟩

end Sys2Proof.Machine
end

