-- ==== Sys2Proof/Laws/PerInstr.lean ====
section
/-! SUPPORT. Per-instruction laws: an instruction's operands fit its operation's schema, the instruction is
rebuilt from them, and it is well formed exactly when each lies in its domain (10_state.md rule R22). -/

/-- The instruction's operands are its operation's schema, and its well-formedness is theirs. -/
def Sys2Proof.Laws.Schema.Statement (i : Sys2Proof.Instr) : Prop :=
  i.operands.map Sys2Proof.Value.type = (Sys2Proof.specOf i.op).schema ∧
    Sys2Proof.buildInstr i.op i.operands = some i ∧
    (i.WellFormed ↔ ∀ v ∈ i.operands, v.InDomain)

theorem Sys2Proof.Laws.Schema.add (r1 r2 r3 : Nat) : Sys2Proof.Laws.Schema.Statement (.add r1 r2 r3) :=
  ⟨rfl, rfl, Sys2Proof.wellFormed_iff _⟩

theorem Sys2Proof.Laws.Schema.sub (r1 r2 r3 : Nat) : Sys2Proof.Laws.Schema.Statement (.sub r1 r2 r3) :=
  ⟨rfl, rfl, Sys2Proof.wellFormed_iff _⟩

theorem Sys2Proof.Laws.Schema.grt (r1 r2 r3 : Nat) : Sys2Proof.Laws.Schema.Statement (.grt r1 r2 r3) :=
  ⟨rfl, rfl, Sys2Proof.wellFormed_iff _⟩

theorem Sys2Proof.Laws.Schema.eql (r1 r2 r3 : Nat) : Sys2Proof.Laws.Schema.Statement (.eql r1 r2 r3) :=
  ⟨rfl, rfl, Sys2Proof.wellFormed_iff _⟩

theorem Sys2Proof.Laws.Schema.jmp (ln : Nat) : Sys2Proof.Laws.Schema.Statement (.jmp ln) :=
  ⟨rfl, rfl, Sys2Proof.wellFormed_iff _⟩

theorem Sys2Proof.Laws.Schema.rst (r1 : Nat) (imm : Int) : Sys2Proof.Laws.Schema.Statement (.rst r1 imm) :=
  ⟨rfl, rfl, Sys2Proof.wellFormed_iff _⟩

theorem Sys2Proof.Laws.Schema.rrd (r1 r2 : Nat) : Sys2Proof.Laws.Schema.Statement (.rrd r1 r2) :=
  ⟨rfl, rfl, Sys2Proof.wellFormed_iff _⟩

theorem Sys2Proof.Laws.Schema.rcl : Sys2Proof.Laws.Schema.Statement .rcl :=
  ⟨rfl, rfl, Sys2Proof.wellFormed_iff _⟩

theorem Sys2Proof.Laws.Schema.and (r1 r2 r3 : Nat) : Sys2Proof.Laws.Schema.Statement (.and r1 r2 r3) :=
  ⟨rfl, rfl, Sys2Proof.wellFormed_iff _⟩

theorem Sys2Proof.Laws.Schema.bor (r1 r2 r3 : Nat) : Sys2Proof.Laws.Schema.Statement (.bor r1 r2 r3) :=
  ⟨rfl, rfl, Sys2Proof.wellFormed_iff _⟩

theorem Sys2Proof.Laws.Schema.xor (r1 r2 r3 : Nat) : Sys2Proof.Laws.Schema.Statement (.xor r1 r2 r3) :=
  ⟨rfl, rfl, Sys2Proof.wellFormed_iff _⟩

theorem Sys2Proof.Laws.Schema.not (r1 r2 : Nat) : Sys2Proof.Laws.Schema.Statement (.not r1 r2) :=
  ⟨rfl, rfl, Sys2Proof.wellFormed_iff _⟩

theorem Sys2Proof.Laws.Schema.rld (m r1 : Nat) : Sys2Proof.Laws.Schema.Statement (.rld m r1) :=
  ⟨rfl, rfl, Sys2Proof.wellFormed_iff _⟩

theorem Sys2Proof.Laws.Schema.rms (m r1 : Nat) : Sys2Proof.Laws.Schema.Statement (.rms m r1) :=
  ⟨rfl, rfl, Sys2Proof.wellFormed_iff _⟩

theorem Sys2Proof.Laws.Schema.inv (r1 r2 : Nat) : Sys2Proof.Laws.Schema.Statement (.inv r1 r2) :=
  ⟨rfl, rfl, Sys2Proof.wellFormed_iff _⟩

theorem Sys2Proof.Laws.Schema.cjp (ln r1 r2 : Nat) (sel : Sys2Proof.Selector) : Sys2Proof.Laws.Schema.Statement (.cjp ln r1 r2 sel) :=
  ⟨rfl, rfl, Sys2Proof.wellFormed_iff _⟩
end

