-- ==== Sys2Proof/Laws/RenderedText.lean ====
section
/-! SUPPORT. Rendered text reads back: the tokens of a canonical text, and the instruction they denote
(43_decoder.md rules R195, R199). -/

namespace Sys2Proof.Machine

theorem isDigit_mem_tokenStarts {c : Char} (h : isDigit c = true) : c ∈ tokenStarts := by
  simp only [isDigit, decide_eq_true_eq] at h
  have h1 : (48 : Nat) ≤ c.toNat := h.1
  have h2 : c.toNat ≤ 57 := h.2
  have key : ∀ n, 48 ≤ n → n ≤ 57 → Char.ofNat n ∈ tokenStarts := by
    intro n a b
    interval_cases n <;> decide
  simpa using key _ h1 h2

theorem tokenStarts_subset {c : Char} (h : c ∈ tokenStarts) : c ∈ tokenChars := List.mem_append_left _ h

theorem decimal_chars (n : Nat) : decimal n ≠ [] ∧ ∀ c ∈ decimal n, c ∈ tokenStarts := by
  have h := digits_decimal n
  simp only [digits, Bool.and_eq_true, List.all_eq_true] at h
  exact ⟨by simpa using h.1, fun c hc => isDigit_mem_tokenStarts (h.2 c hc)⟩

theorem mnemonic_chars (op : Op) :
    (∀ c ∈ (specOf op).mnemonic.head?, c ∈ tokenStarts) ∧ (specOf op).mnemonic ≠ [] ∧
      ∀ c ∈ (specOf op).mnemonic, c ∈ tokenChars := by
  cases op <;> simp [specOf, tokenChars, tokenStarts]

theorem renderOperand_chars (v : Value) :
    (∀ c ∈ (renderOperand v).head?, c ∈ tokenStarts) ∧ renderOperand v ≠ [] ∧
      ∀ c ∈ renderOperand v, c ∈ tokenChars := by
  have lead : ∀ (a b : Char) (n : Nat), a ∈ tokenStarts → b ∈ tokenChars →
      (∀ c ∈ ([a, b] ++ decimal n).head?, c ∈ tokenStarts) ∧ [a, b] ++ decimal n ≠ [] ∧
        ∀ c ∈ [a, b] ++ decimal n, c ∈ tokenChars := by
    intro a b n ha hb
    refine ⟨by simpa using ha, by simp, ?_⟩
    intro c hc
    simp only [List.cons_append, List.nil_append, List.mem_cons] at hc
    rcases hc with rfl | rfl | hc
    · exact tokenStarts_subset ha
    · exact hb
    · exact tokenStarts_subset ((decimal_chars n).2 c hc)
  cases v with
  | reg n => exact lead 'r' 'g' n (by decide) (by decide)
  | ram n => exact lead 'r' 'm' n (by decide) (by decide)
  | line n => exact lead 'l' 'n' n (by decide) (by decide)
  | sel s => exact mnemonic_chars (selectorOp s)
  | imm v =>
    obtain ⟨hne, hd⟩ := decimal_chars v.natAbs
    have hm : '-' ∈ tokenStarts := by decide
    simp only [renderOperand]
    split
    · refine ⟨by simpa using hm, by simp, ?_⟩
      intro c hc
      simp only [List.singleton_append, List.mem_cons] at hc
      rcases hc with rfl | hc
      · exact tokenStarts_subset hm
      · exact tokenStarts_subset (hd c hc)
    · refine ⟨?_, by simpa using hne, fun c hc => tokenStarts_subset (hd c (by simpa using hc))⟩
      intro c hc
      exact hd c (List.mem_of_head? (by simpa using hc))

theorem tokens_renderOperands {cfg : Cfg} (h : ReadsRenderedText cfg) (vs : List Value) :
    tokens cfg.isWs (renderOperands vs) = vs.map renderOperand ∧
      ∀ c ∈ (renderOperands vs).head?, cfg.isWs c = true := by
  induction vs with
  | nil => exact ⟨rfl, by simp [renderOperands]⟩
  | cons v vs ih =>
    obtain ⟨-, hne, hch⟩ := renderOperand_chars v
    have hw : ∀ c ∈ renderOperand v, cfg.isWs c = false := fun c hc => h.others c (hch c hc)
    refine ⟨?_, by simp [renderOperands, h.space]⟩
    rw [renderOperands, List.cons_append, tokens_space h.space, tokens_word _ _ hne hw ih.2, ih.1,
      List.map_cons]

/-- The tokens of a canonical text are its mnemonic and its operands' texts. -/
theorem tokens_render {cfg : Cfg} (h : ReadsRenderedText cfg) (op : Op) (vs : List Value) :
    tokens cfg.isWs (render (specOf op) vs) = (specOf op).mnemonic :: vs.map renderOperand := by
  obtain ⟨-, hne, hch⟩ := mnemonic_chars op
  obtain ⟨h1, h2⟩ := tokens_renderOperands h vs
  rw [render, tokens_word _ _ hne (fun c hc => h.others c (hch c hc)) h2, h1]

theorem lineTokens_render {cfg : Cfg} (h : ReadsRenderedText cfg) (op : Op) (vs : List Value) :
    lineTokens cfg (render (specOf op) vs) = (specOf op).mnemonic :: vs.map renderOperand := by
  unfold lineTokens
  rw [tokens_render h]
  cases hm : cfg.commentMarker with
  | none => rfl
  | some c =>
    have hc := h.marker c hm
    simp only [stripComment]
    rw [List.takeWhile_eq_self_iff]
    intro t ht
    simp only [bne_iff_ne, ne_eq]
    intro hh
    rcases List.mem_cons.mp ht with rfl | ht
    · exact hc ((mnemonic_chars op).1 c hh)
    · obtain ⟨v, -, rfl⟩ := List.mem_map.mp ht
      exact hc ((renderOperand_chars v).1 c hh)

theorem operandValues_render (cfg : Cfg) {vs : List Value} (hd : ∀ v ∈ vs, v.InDomain) :
    operandValues cfg (vs.map Value.type) (vs.map renderOperand) = some vs := by
  induction vs with
  | nil => rfl
  | cons v vs ih =>
    simp only [List.map_cons, operandValues, operandValue_render cfg (hd v (by simp)),
      ih fun u hu => hd u (by simp [hu])]

/-- A canonical text denotes its instruction. -/
theorem lineInstr_instrText {cfg : Cfg} (h : ReadsRenderedText cfg) {i : Instr} (hi : i.WellFormed) :
    lineInstr cfg (instrText i) = some i := by
  have hv := operandValues_render cfg ((wellFormed_iff i).mp hi)
  rw [operands_types] at hv
  have hlen : (i.operands.map renderOperand).length = (specOf i.op).schema.length := by
    rw [← operands_types i]; simp
  have hf : frontEnd cfg (instrText i) 0 = .ok (specOf i.op, i.operands.map renderOperand) := by
    unfold frontEnd
    rw [instrText, lineTokens_render h]
    simp only [lookup_mnemonic, hlen, if_true]
  simp only [lineInstr, hf, hv, Option.bind_some, specOf_op, buildInstr_operands]

/-- The default configuration reads rendered text (00_scope.md rule R10). -/
theorem defaultCfg_readsRenderedText : ReadsRenderedText defaultCfg := by
  have h : tokenChars.all (fun c => !defaultCfg.isWs c) = true := by rfl
  refine ⟨by decide, fun c hc => by simpa using List.all_eq_true.mp h c hc, ?_⟩
  intro c h
  cases h

end Sys2Proof.Machine
end

