-- ==== Sys2Proof/Tests/Slice0.lean ====
section
/-! SUPPORT. The model's own tests. Every expected value is from the field tables of 30_encoding.md or from
95_test_vectors.md, but for the witnesses, which only show that the hypotheses of a statement can be met. -/

open Sys2Proof Sys2Proof.Machine

/-! ### Helpers -/

/-- The start-up state with one operation issued. -/
def testIssued (r : Request) : State := { State.reset with requests := [r] }

/-- One step's next state, or the state itself where there is none. -/
def testNext (s : State) : State :=
  match step s with
  | .next t => t
  | _ => s

/-! ### Decoding: words written out from the field tables (30_encoding.md R72 to R78) -/

theorem test_decode_add : decodeTableWord 32 0b00000001001000110000000000000000 = some (.add 1 2 3) := by decide
theorem test_decode_sub : decodeTableWord 32 0b00011111000001110000000000000000 = some (.sub 15 0 7) := by decide
theorem test_decode_grt : decodeTableWord 32 0b00100100100000010000000000000000 = some (.grt 4 8 1) := by decide
theorem test_decode_eql : decodeTableWord 32 0b00111111011111100000000000000000 = some (.eql 15 7 14) := by decide
theorem test_decode_jmp : decodeTableWord 32 0b01000001001000110100000000000000 = some (.jmp 4660) := by decide
theorem test_decode_rst : decodeTableWord 32 0b01010100111111111111111000000000 = some (.rst 4 (-2)) := by decide
theorem test_decode_rrd : decodeTableWord 32 0b01100001001000000000000000000000 = some (.rrd 1 2) := by decide
theorem test_decode_rcl : decodeTableWord 32 0b01110000000000000000000000000000 = some (.rcl) := by decide
theorem test_decode_and : decodeTableWord 32 0b10000001001001000000000000000000 = some (.and 1 2 4) := by decide
theorem test_decode_bor : decodeTableWord 32 0b10011000010000100000000000000000 = some (.bor 8 4 2) := by decide
theorem test_decode_xor : decodeTableWord 32 0b10100011010110010000000000000000 = some (.xor 3 5 9) := by decide
theorem test_decode_not : decodeTableWord 32 0b10110011010000000000000000000000 = some (.not 3 4) := by decide
theorem test_decode_rld : decodeTableWord 32 0b11001000000100100000000000000000 = some (.rld 129 2) := by decide
theorem test_decode_rms : decodeTableWord 32 0b11010001001001010000000000000000 = some (.rms 18 5) := by decide
theorem test_decode_inv : decodeTableWord 32 0b11101001101000000000000000000000 = some (.inv 9 10) := by decide
theorem test_decode_cjp : decodeTableWord 32 0b11110000000000001010001000111001 = some (.cjp 10 2 3 .bor) := by decide

/-! ### One step each: the line's word (95_test_vectors.md, derived vectors per operation) -/

theorem test_step_add : (testNext (testIssued (.encodeLine "ADD rg05 rg010 rg15".toList))).results = [.valid 0x05af0000#32] := by
  decide
theorem test_step_sub : (testNext (testIssued (.encodeLine "SUB rg15 rg0 rg7".toList))).results = [.valid 0x1f070000#32] := by
  decide
theorem test_step_grt : (testNext (testIssued (.encodeLine "GRT rg0 rg0 rg0".toList))).results = [.valid 0x20000000#32] := by
  decide
theorem test_step_eql : (testNext (testIssued (.encodeLine "EQL rg15 rg15 rg15".toList))).results = [.valid 0x3fff0000#32] := by
  decide
theorem test_step_jmp : (testNext (testIssued (.encodeLine "JMP ln4660".toList))).results = [.valid 0x41234000#32] := by
  decide
theorem test_step_rst : (testNext (testIssued (.encodeLine "RST rg1 -32768".toList))).results = [.valid 0x51800000#32] := by
  decide
theorem test_step_rrd : (testNext (testIssued (.encodeLine "RRD rg0 rg15".toList))).results = [.valid 0x60f00000#32] := by
  decide
theorem test_step_rcl : (testNext (testIssued (.encodeLine "RCL".toList))).results = [.valid 0x70000000#32] := by
  decide
theorem test_step_and : (testNext (testIssued (.encodeLine "AND rg1 rg2 rg3".toList))).results = [.valid 0x81230000#32] := by
  decide
theorem test_step_bor : (testNext (testIssued (.encodeLine "BOR rg4 rg5 rg6".toList))).results = [.valid 0x94560000#32] := by
  decide
theorem test_step_xor : (testNext (testIssued (.encodeLine "XOR rg7 rg8 rg9".toList))).results = [.valid 0xa7890000#32] := by
  decide
theorem test_step_not : (testNext (testIssued (.encodeLine "NOT rg3 rg4".toList))).results = [.valid 0xb3400000#32] := by
  decide
theorem test_step_rld : (testNext (testIssued (.encodeLine "RLD rm1 rg2".toList))).results = [.valid 0xc0120000#32] := by
  decide
theorem test_step_rms : (testNext (testIssued (.encodeLine "RMS rm128 rg1".toList))).results = [.valid 0xd8010000#32] := by
  decide
theorem test_step_inv : (testNext (testIssued (.encodeLine "INV rg15 rg0".toList))).results = [.valid 0xef000000#32] := by
  decide
theorem test_step_cjp : (testNext (testIssued (.encodeLine "CJP ln10 rg2 rg3 BOR".toList))).results = [.valid 0xf000a239#32] := by
  decide

/-! ### The decoder and its failures (95_test_vectors.md) -/

theorem test_decode_padding : (testNext (State.reset.withFetchWord 32 0x12345678)).answers =
    [.text "SUB rg2 rg3 rg4".toList] := by decide
theorem test_decode_negative : (testNext (State.reset.withFetchWord 32 0x5fffffff)).answers =
    [.text "RST rg15 -1".toList] := by decide
theorem test_decode_cjp_text : (testNext (State.reset.withFetchWord 32 0xfffffffa)).answers =
    [.text "CJP ln65535 rg15 rg15 XOR".toList] := by decide
theorem test_decode_not_selector : (testNext (State.reset.withFetchWord 32 0xf000000b)).answers =
    [.decodeFailed .unknownSelectorBits] := by decide
theorem test_decode_writes_nothing : (testNext (State.reset.withFetchWord 32 0x50ffff00)).results = [] := by decide

/-! ### Encoder failures (95_test_vectors.md; the reason codes are those of P2) -/

theorem test_empty_line : encode defaultCfg [] 7 = (.invalid, [⟨7, [], .missingOperation, none, none⟩]) := by decide
theorem test_lower_case : encode defaultCfg "add rg1 rg2 rg3".toList 2 =
    (.invalid, [⟨2, "add".toList, .unknownOperation, none, none⟩]) := by decide
theorem test_fold_case : encode { defaultCfg with foldCase := true } "cjp ln0 rg0 rg1 and".toList 2 =
    (.valid 0xf0000018#32, []) := by decide
theorem test_arity : encode defaultCfg "ADD rg99 rg2".toList 3 =
    (.invalid, [⟨3, "ADD".toList, .arityMismatch, some 3, some 2⟩]) := by decide
theorem test_all_operands_reported : encode defaultCfg "CJP ln65536 rg16 rm1 NOT".toList 5 =
    (.invalid, [⟨5, "ln65536".toList, .invalidLineNumber, none, none⟩,
      ⟨5, "rg16".toList, .invalidRegister, none, none⟩, ⟨5, "rm1".toList, .invalidRegister, none, none⟩,
      ⟨5, "NOT".toList, .invalidBitwiseSelector, none, none⟩]) := by decide
theorem test_positional_types : encode defaultCfg "RLD rg0 rm0".toList 7 =
    (.invalid, [⟨7, "rg0".toList, .invalidRamAddress, none, none⟩,
      ⟨7, "rm0".toList, .invalidRegister, none, none⟩]) := by decide
theorem test_comment : encode { defaultCfg with commentMarker := some ';' } "RST rg3 -007 ;; trailing".toList 6 =
    (.valid 0x53fff900#32, []) := by decide
theorem test_comment_inside_token : encode { defaultCfg with commentMarker := some ';' } "RST rg1 5;x".toList 3 =
    (.invalid, [⟨3, "5;x".toList, .invalidImmediate, none, none⟩]) := by decide
theorem test_immediate_bounds :
    (validate defaultCfg .immediate "32768".toList, validate defaultCfg .immediate "-32769".toList,
      validate defaultCfg .immediate "+".toList, validate defaultCfg .immediate "--1".toList) =
    (.error .invalidImmediate, .error .invalidImmediate, .error .invalidImmediate, .error .invalidImmediate) := by
  decide
theorem test_codes :
    [Reason.missingOperation, .unknownOperation, .arityMismatch, .arityMismatch, .invalidLineNumber,
      .invalidRegister, .invalidRegister, .invalidBitwiseSelector, .invalidImmediate, .invalidRamAddress,
      .invalidRegister, .arityMismatch].map (fun r => (reasonCode r).toNat) =
    [0, 1, 2, 2, 5, 3, 3, 7, 6, 4, 3, 2] ∧ decodeFailCode .unknownOpcode = 8 ∧
    decodeFailCode .unknownSelectorBits = 9 := by decide
theorem test_selector_lut : (List.range 16).map (fun f => selectorLut (BitVec.ofNat 4 f)) =
    List.replicate 8 none ++ [some .and, some .bor, some .xor] ++ List.replicate 5 none := by decide
theorem test_hex8 : hex8 0x56ffd600#32 = "56ffd600".toList := by decide
theorem test_bytes : wordBytes .mostSignificantFirst 0x01230045#32 = [0x01#8, 0x23#8, 0x00#8, 0x45#8] ∧
    wordBytes .leastSignificantFirst 0x01230045#32 = [0x45#8, 0x00#8, 0x23#8, 0x01#8] := by decide

/-! ### WellFormed refuses an ill-formed term for each of its checks -/

theorem test_refuses_RRR : ([
    Instr.add 16 0 0, .add 0 16 0, .add 0 0 16, .sub 16 0 0, .sub 0 16 0, .sub 0 0 16, .grt 16 0 0,
    .grt 0 16 0, .grt 0 0 16, .eql 16 0 0, .eql 0 16 0, .eql 0 0 16, .and 16 0 0, .and 0 16 0,
    .and 0 0 16, .bor 16 0 0, .bor 0 16 0, .bor 0 0 16, .xor 16 0 0, .xor 0 16 0, .xor 0 0 16].any Instr.wellFormed) = false := by decide
theorem test_refuses_RR : ([
    Instr.rrd 16 0, .rrd 0 16, .not 16 0, .not 0 16, .inv 16 0, .inv 0 16].any Instr.wellFormed) = false := by decide
theorem test_refuses_MR : ([
    Instr.rld 256 0, .rld 0 16, .rms 256 0, .rms 0 16].any Instr.wellFormed) = false := by decide
theorem test_refuses_L : ([
    Instr.jmp 65536].any Instr.wellFormed) = false := by decide
theorem test_refuses_LRRS : ([
    Instr.cjp 65536 0 0 .and, .cjp 0 16 0 .and, .cjp 0 0 16 .and].any Instr.wellFormed) = false := by decide
theorem test_refuses_RI : ([
    Instr.rst 16 0, .rst 0 32768, .rst 0 (-32769)].any Instr.wellFormed) = false := by decide

/-! ### Witnesses: the hypotheses of each statement can be met, at boundary values of each clause -/

theorem witness_wellFormed : ([Instr.add 15 15 15, .sub 0 0 0, .jmp 65535, .rst 15 (-32768), .rst 0 32767, .rcl,
    .rld 255 15, .inv 0 15, .cjp 65535 15 15 .xor, .cjp 0 0 0 .and].all Instr.wellFormed) = true := by decide

theorem witness_EncodeInvertsDecodeInstr : decodeInstr 0x0123ffff#32 = .ok (.add 1 2 3) ∧
    decodeInstr 0xfffffffa#32 = .ok (.cjp 65535 15 15 .xor) := by decide

theorem witness_FormatsPlaceTheFields : Instr.WellFormed (.rst 15 (-1)) ∧
    (23, 8, 65535) ∈ fieldTable (.rst 15 (-1)) := by decide

theorem witness_ReadsRenderedText : ReadsRenderedText defaultCfg := by
  have h : tokenChars.all (fun c => !defaultCfg.isWs c) = true := by rfl
  exact ⟨by decide, fun c hc => by simpa using List.all_eq_true.mp h c hc, fun c hc => by cases hc⟩

/-- A configuration with a comment marker that the round trips admit: U+003B begins no rendered token. -/
theorem witness_ReadsRenderedText_marker : ReadsRenderedText { defaultCfg with commentMarker := some ';' } := by
  have h : tokenChars.all (fun c => !Cfg.isWs { defaultCfg with commentMarker := some ';' } c) = true := by rfl
  refine ⟨by decide, fun c hc => by simpa using List.all_eq_true.mp h c hc, fun c hc => ?_⟩
  obtain rfl : ';' = c := by simpa using hc
  decide

theorem witness_PaddingIsZeroedAndIgnored : encode defaultCfg "JMP ln65535".toList 1 = (.valid 0x4ffff000#32, []) ∧
    decodeWord 0x4ffff001#32 = .ok "JMP ln65535".toList ∧ clearPadding 0x4ffff001#32 ≠ 0x4ffff001#32 := by decide

theorem witness_DecodeIsInjectiveOnZeroPadding : clearPadding 0x4ffff000#32 = 0x4ffff000#32 ∧
    decodeWord 0x4ffff000#32 = .ok "JMP ln65535".toList ∧ Op.jmp ≠ Op.cjp := by decide

theorem witness_DecodeFailsExactlyOnBadSelectors :
    [0xf0000007#32, 0xf000000b#32, 0xf000000f#32].all (fun w => decodeWord w == .error .unknownSelectorBits) = true ∧
    [0xf0000008#32, 0xf000000a#32].all (fun w => decodeWord w != .error .unknownSelectorBits) = true := by decide

theorem witness_PrefixedOperandsValidate : validate defaultCfg .register "rg15".toList = .ok (bin 4 15) ∧
    validate defaultCfg .register "rg16".toList = .error .invalidRegister ∧
    validate defaultCfg .ramAddress "rm255".toList = .ok (bin 8 255) ∧
    validate defaultCfg .ramAddress "rm256".toList = .error .invalidRamAddress ∧
    validate defaultCfg .lineNumber "ln65535".toList = .ok (bin 16 65535) ∧
    validate defaultCfg .lineNumber "ln65536".toList = .error .invalidLineNumber := by decide

theorem witness_ImmediateOperandsValidate : validate defaultCfg .immediate "32767".toList = .ok (bin 16 32767) ∧
    validate defaultCfg .immediate "-32768".toList = .ok (bin 16 32768) ∧
    validate defaultCfg .immediate "+0".toList = .ok (bin 16 0) ∧
    validate defaultCfg .immediate "32768".toList = .error .invalidImmediate := by decide

theorem witness_SelectorOperandsValidate :
    validate defaultCfg .bitwiseSelector "XOR".toList = .ok [true, false, true, false] ∧
    validate defaultCfg .bitwiseSelector "INV".toList = .error .invalidBitwiseSelector := by decide

theorem witness_OperandConversionsAreBijective : (15 : Nat) < 2 ^ 4 ∧ ((-32768 : Int) ≤ -32768 ∧ (-32768 : Int) < 32768) ∧
    (65535 : Nat) < 65536 := by decide

theorem witness_TokensAreMaximalRuns : "rg1".toList ≠ [] ∧ "rg1".toList.all (fun d => !defaultCfg.isWs d) = true ∧
    defaultCfg.isWs ' ' = true ∧ tokens defaultCfg.isWs " RRD  rg1".toList = ["RRD".toList, "rg1".toList] := by
  refine ⟨by decide, by decide, by decide, by decide⟩

theorem witness_CommentsAreCutAtTheirToken : defaultCfg.commentMarker = none ∧
    lineTokens { defaultCfg with commentMarker := some ';' } "RCL ;x y".toList = ["RCL".toList] ∧
    Cfg.isWs { defaultCfg with commentMarker := some ' ' } ' ' = true := by decide

theorem witness_MissingAndUnknownOperations : lineTokens defaultCfg " ".toList = [] ∧
    " \t".toList.all (fun c => defaultCfg.isWs c) = true ∧
    lineTokens defaultCfg "FOO rg1".toList = ["FOO".toList, "rg1".toList] ∧
    ∀ op, (specOf op).mnemonic ≠ if defaultCfg.foldCase then upper "FOO".toList else "FOO".toList := by
  refine ⟨by decide, by decide, by decide, fun op => ?_⟩
  cases op <;> decide

theorem witness_ArityMismatchIsOneDiagnostic : lineTokens defaultCfg "RCL rg0".toList = ["RCL".toList, "rg0".toList] ∧
    lookup defaultCfg "RCL".toList = some (specOf .rcl) ∧ ["rg0".toList].length ≠ (specOf .rcl).schema.length := by decide

theorem witness_EveryFailingOperandIsReported :
    lineTokens defaultCfg "RST rg16 5".toList = ["RST".toList, "rg16".toList, "5".toList] ∧
    lookup defaultCfg "RST".toList = some (specOf .rst) ∧
    ["rg16".toList, "5".toList].length = (specOf .rst).schema.length ∧
    validate defaultCfg .register "rg16".toList = .error .invalidRegister := by decide

theorem witness_ValidLinesEmitThePackedWord :
    lineTokens defaultCfg "RST rg15 5".toList = ["RST".toList, "rg15".toList, "5".toList] ∧
    List.Forall₂ (fun p b => validate defaultCfg p.1 p.2 = .ok b)
      ((specOf .rst).schema.zip ["rg15".toList, "5".toList]) [bin 4 15, bin 16 5] := by
  refine ⟨by decide, ?_⟩
  exact .cons (by decide) (.cons (by decide) .nil)

theorem witness_DiagnosticsPerLineAreBounded : (encode defaultCfg "RCL".toList 1).1 ≠ .invalid ∧
    (encode defaultCfg "CJP a b c d".toList 1).1 = .invalid ∧
    (encode defaultCfg "CJP a b c d".toList 1).2.length = 4 := by decide

theorem witness_EncodeThenDecodeIsCanonicalForm :
    encode defaultCfg "RST   rg01   +0005".toList 1 = (.valid 0x51000500#32, []) := by decide

theorem witness_DecodeThenEncodeClearsPadding : decodeWord 0x0123ffff#32 = .ok "ADD rg1 rg2 rg3".toList ∧
    opcodeField 0xfffffffa#32 = 0xF#4 := by decide

/-- Both directions of `converted` are reached: a state that serves `DECODE_WORD` and one that does not. -/
theorem witness_instructions : (State.reset.withFetchWord 32 0x01230000).isDecoding = true ∧
    (testIssued (.encodeLine "ADD rg1 rg2 rg3".toList)).isDecoding = false ∧
    Instr.WellFormed (.rst 15 (-32768)) ∧ (15 : Nat) < 16 ∧ (255 : Nat) < 256 ∧ (65535 : Nat) < 65536 := by decide

theorem witness_StepRunsTheDecodedInstruction :
    (State.reset.withFetchWord 32 0x01230000).requests = [.decodeWord 0x01230000#32] ∧
    decodeInstr 0x01230000#32 = .ok (.add 1 2 3) := by decide

theorem witness_StepRunsTheLinesInstruction : (testIssued (.encodeLine "RCL".toList)).requests = [.encodeLine "RCL".toList] ∧
    lineInstr (testIssued (.encodeLine "RCL".toList)).cfg "RCL".toList = some .rcl := by decide

/-- The other port operations at the head of the queue, which are all their statements ask. -/
theorem witness_requests : ([Request.resetBatch, .newBatch defaultCfg, .lookup "ADD".toList, .lookupByOpcode 15,
    .encode defaultCfg "RCL".toList 0, .readBatch, .encodeBatch ["RCL".toList, []], .decodeBatch [0#32, 0xf0000000#32],
    .encodeLine [], .decodeWord 0xf0000000#32].all fun r => (testIssued r).requests == [r]) = true := by decide

/-- A direct call whose configuration is not the block's, with a line number that no batch gives (R160, R266). -/
theorem test_encode_own_cfg :
    (testNext (testIssued (.encode { defaultCfg with foldCase := true } "rcl".toList 0))).answers =
      [.encoded (.valid 0x70000000#32) []] ∧
    (testNext (testIssued (.encode defaultCfg "rcl".toList 0))).answers =
      [.encoded .invalid [⟨0, "rcl".toList, .unknownOperation, none, none⟩]] := by decide

theorem witness_ReadBatchShowsTheOutputs :
    (testNext { testIssued .readBatch with results := [.valid 0x70000000#32, .invalid] }).answers =
      [.batch ⟨[.valid 0x70000000#32, .invalid], [], true, [some "70000000".toList, none]⟩] := by decide

theorem witness_OnlyEncodeLineAppends : step (testIssued (.encodeLine [])) = .next (testNext (testIssued (.encodeLine []))) ∧
    (testNext (testIssued (.encodeLine []))).diagLog = [⟨1, [], .missingOperation, none, none⟩] := ⟨rfl, by decide⟩

theorem witness_CfgIsConstantWithinABatch :
    (testNext (testIssued (.newBatch { defaultCfg with foldCase := true }))).cfg.foldCase = true := by decide

/-- Two states with one configuration and one line to encode, one of them in the middle of a batch. -/
theorem witness_LinesAreIndependent :
    (testIssued (.encodeLine [])).cfg = { testIssued (.encodeLine []) with lineCtr := 3 }.cfg ∧
    { testIssued (.encodeLine []) with lineCtr := 3 }.requests = [.encodeLine []] := by decide

/-- A state in the middle of a batch, with an Invalid line, has the invariant. -/
theorem witness_BatchInv : State.BatchInv { State.reset with
    lineCtr := 2, results := [.invalid, .valid 0x70000000#32],
    diagLog := [⟨1, [], .missingOperation, none, none⟩] } := by
  refine ⟨rfl, ?_, by simp, by simp, ?_⟩
  · intro k h1 h2
    have : k = 1 ∨ k = 2 := by simp at h2; omega
    rcases this with rfl | rfl <;> simp
  · intro w hw
    obtain rfl : w = 0x70000000#32 := by simpa using hw
    exact ⟨"RCL".toList, by decide⟩
end

section
/-! CLAIMS. The transport text of a word (20_memory.md R54). Everything about a digit follows from one fact, that
`hexDigit v` is the entry of the alphabet at `v`; a word is read back from its eight 4-bit digits. -/

namespace Sys2Proof

/-- R54's `hexdigit(v) = "0123456789abcdef"[v]`; the lookup never falls off the alphabet. -/
theorem hexAlphabet_getElem? (v : BitVec 4) : "0123456789abcdef".toList[v.toNat]? = some (hexDigit v) :=
  List.getElem?_eq_getElem v.isLt

theorem hexDigit_mem_hexAlphabet (v : BitVec 4) : hexDigit v ∈ "0123456789abcdef".toList :=
  List.mem_of_getElem? (hexAlphabet_getElem? v)

/-- The alphabet repeats no character, so a digit names its position. -/
theorem hexDigit_injective : Function.Injective hexDigit := by
  intro v v' h
  have nodup : "0123456789abcdef".toList.Nodup := by decide
  have same : "0123456789abcdef".toList[v.toNat]? = "0123456789abcdef".toList[v'.toNat]? := by
    rw [hexAlphabet_getElem?, hexAlphabet_getElem?, h]
  exact BitVec.eq_of_toNat_eq ((List.getElem?_inj v.isLt nodup).mp same)

theorem hex8_eq_alphabet_slices (w : Word) : hex8 w = [7, 6, 5, 4, 3, 2, 1, 0].map fun i =>
    ("0123456789abcdef".toList)[slice w (4 * i) 4]?.getD ' ' := by
  simp only [hex8, slice, hexAlphabet_getElem?, Option.getD_some]

@[simp] theorem hex8_length (w : Word) : (hex8 w).length = 8 := by simp [hex8]

theorem mem_hexAlphabet_of_mem_hex8 {w : Word} {c : Char} (h : c ∈ hex8 w) :
    c ∈ "0123456789abcdef".toList := by
  obtain ⟨i, -, rfl⟩ := List.mem_map.mp h
  exact hexDigit_mem_hexAlphabet _

/-- Bit `k` of a word is bit `k % 4` of its digit `k / 4`. -/
theorem getLsbD_eq_getLsbD_digit (w : Word) (k : Nat) :
    w.getLsbD k = (w.extractLsb' (4 * (k / 4)) 4).getLsbD (k % 4) := by
  rw [BitVec.getLsbD_extractLsb', Nat.div_add_mod, decide_eq_true (Nat.mod_lt k (by decide)), Bool.true_and]

theorem word_eq_of_digits_eq {w w' : Word}
    (h : ∀ i < 8, w.extractLsb' (4 * i) 4 = w'.extractLsb' (4 * i) 4) : w = w' := by
  refine BitVec.eq_of_getLsbD_eq fun k hk => ?_
  rw [getLsbD_eq_getLsbD_digit w, getLsbD_eq_getLsbD_digit w', h (k / 4) (by omega)]

theorem hex8_injective : Function.Injective hex8 := by
  intro w w' h
  refine word_eq_of_digits_eq fun i hi => hexDigit_injective ?_
  have listed : i ∈ [7, 6, 5, 4, 3, 2, 1, 0] := by simp; omega
  exact List.map_inj_left.mp h i listed

end Sys2Proof

open Sys2Proof

/-- Settles O8: the digits are the alphabet's entries, and equal texts have equal digits, hence equal words. -/
theorem hex8RendersTheWord : Obligations.Hex8RendersTheWord :=
  ⟨hex8_eq_alphabet_slices, fun w => ⟨hex8_length w, fun _ => mem_hexAlphabet_of_mem_hex8⟩,
    fun _ _ h => hex8_injective h, by decide, by decide⟩
end

section
/-! CLAIMS. The field tables of the seven formats (30_encoding.md R72 to R78). A packed word is its fields from bit 31
down with the padding below them, so its rows can be read off the widths and values of any fields, whatever the format;
a format's table is the rows of its opcode and operands. -/

namespace Sys2Proof

/-! ### The rows of a packed word -/

/-- The rows `(hi, lo, value)` of fields `(width, value)` packed one below the other from bit `top - 1` down, with the
bits that are left as a last row of padding, if there are any (R70, R83). -/
def fieldRows : Nat → List (Nat × Nat) → List (Nat × Nat × Nat)
  | 0, [] => []
  | top + 1, [] => [(top, 0, 0)]
  | top, (width, value) :: fs => (top - 1, top - width, value) :: fieldRows (top - width) fs

/-- What a row shows of a field's bits. -/
abbrev widthAndValue (f : Bits) : Nat × Nat := (f.length, uint f)

/-- If the low `top` bits of a word are fields with zeros below them, each row of these fields holds its value. -/
theorem slice_of_mem_fieldRows {w : Word} {top : Nat} {fs : List Bits} (hfit : fs.flatten.length ≤ top)
    (hne : ∀ f ∈ fs, 0 < f.length)
    (hw : w.toNat % 2 ^ top = uint fs.flatten * 2 ^ (top - fs.flatten.length))
    {row : Nat × Nat × Nat} (hrow : row ∈ fieldRows top (fs.map widthAndValue)) :
    slice w row.2.1 (row.1 - row.2.1 + 1) = row.2.2 := by
  induction fs generalizing top with
  | nil =>
    cases top with
    | zero => cases hrow
    | succ top =>
      obtain rfl := List.mem_singleton.mp hrow
      simpa [slice_eq] using hw
  | cons f fs ih =>
    rw [List.flatten_cons, List.length_append] at hfit hw
    obtain ⟨rest, rfl⟩ := Nat.exists_eq_add_of_le ((Nat.le_add_right _ _).trans hfit)
    have hfit' : fs.flatten.length ≤ rest := Nat.le_of_add_le_add_left hfit
    have hlow : uint fs.flatten * 2 ^ (rest - fs.flatten.length) < 2 ^ rest := by
      calc uint fs.flatten * 2 ^ (rest - fs.flatten.length)
          < 2 ^ fs.flatten.length * 2 ^ (rest - fs.flatten.length) :=
            Nat.mul_lt_mul_of_pos_right (uint_lt _) (by positivity)
        _ = 2 ^ rest := by rw [← pow_add, Nat.add_sub_cancel' hfit']
    have hsplit : w.toNat % 2 ^ (f.length + rest) =
        uint f * 2 ^ rest + uint fs.flatten * 2 ^ (rest - fs.flatten.length) := by
      rw [hw, uint_append, Nat.add_sub_add_left, Nat.add_mul, Nat.mul_assoc, ← pow_add, Nat.add_sub_cancel' hfit']
    rw [List.map_cons, fieldRows, Nat.add_sub_cancel_left] at hrow
    rcases List.mem_cons.mp hrow with rfl | hrow
    · have hpos := hne f List.mem_cons_self
      have hwidth : f.length + rest - 1 - rest + 1 = f.length := by omega
      rw [hwidth, slice_eq, ← slice_split, hsplit, Nat.add_comm, Nat.add_mul_div_right _ _ (by positivity),
        Nat.div_eq_of_lt hlow, Nat.zero_add]
    · refine ih hfit' (fun g hg => hne g (List.mem_cons_of_mem _ hg)) ?_ hrow
      rw [← slice_low w.toNat f.length rest, hsplit, Nat.mul_add_mod', Nat.mod_eq_of_lt hlow]

/-! ### The fields of an instruction -/

/-- The number in a value's field (R79). -/
def Value.code : Value → Nat
  | .reg n => n
  | .ram n => n
  | .line n => n
  | .imm v => (v % 2 ^ 16).toNat
  | .sel s => (specOf (selectorOp s)).opcode.toNat

theorem uint_fieldBits {v : Value} (h : v.InDomain) : uint (fieldBits v) = v.code := by
  cases v with
  | reg n | ram n | line n => exact uint_bin_of_lt h
  | imm v => exact uint_bin_of_lt (show (v % 2 ^ 16).toNat < 2 ^ 16 by omega)
  | sel s => exact uint_bin_of_lt (specOf (selectorOp s)).opcode.isLt

theorem length_fieldBits_pos (v : Value) : 0 < (fieldBits v).length := by
  rw [length_fieldBits]
  cases v.type <;> decide

/-- The fields of an instruction's word, the opcode first (R70). -/
def Instr.fields (i : Instr) : List Bits := bin opcodeWidth (specOf i.op).opcode.toNat :: i.operands.map fieldBits

theorem encodeInstr_eq_packWord_fields (i : Instr) : encodeInstr i = packWord i.fields.flatten := rfl

theorem length_flatten_fields_le (i : Instr) : i.fields.flatten.length ≤ 32 := by
  have operands_le : (i.operands.flatMap fieldBits).length ≤ 28 := by
    rw [length_flatMap_fieldBits, operands_types]
    exact schema_fits i.op
  rw [Instr.fields, List.flatten_cons, List.length_append, length_bin, ← List.flatMap_def]
  exact Nat.add_le_add_left operands_le 4

theorem length_pos_of_mem_fields {i : Instr} {f : Bits} (hf : f ∈ i.fields) : 0 < f.length := by
  rcases List.mem_cons.mp hf with rfl | hf
  · exact Nat.succ_pos _
  · obtain ⟨v, -, rfl⟩ := List.mem_map.mp hf
    exact length_fieldBits_pos v

theorem map_widthAndValue_fields {i : Instr} (hi : i.WellFormed) : i.fields.map widthAndValue =
    (4, (specOf i.op).opcode.toNat) :: i.operands.map fun v => (operandWidth v.type, v.code) := by
  rw [Instr.fields, List.map_cons, List.map_map, widthAndValue, length_bin, uint_bin_of_lt (specOf i.op).opcode.isLt]
  refine congrArg _ (List.map_congr_left fun v hv => ?_)
  exact Prod.ext (length_fieldBits v) (uint_fieldBits ((wellFormed_iff i).mp hi v hv))

theorem slice_encodeInstr {i : Instr} {row : Nat × Nat × Nat}
    (hrow : row ∈ fieldRows 32 (i.fields.map widthAndValue)) :
    slice (encodeInstr i) row.2.1 (row.1 - row.2.1 + 1) = row.2.2 := by
  have hfit := length_flatten_fields_le i
  refine slice_of_mem_fieldRows hfit (fun _ => length_pos_of_mem_fields) ?_ hrow
  rw [Nat.mod_eq_of_lt (encodeInstr i).isLt, encodeInstr_eq_packWord_fields, packWord_toNat hfit]

end Sys2Proof

namespace Sys2Proof.Machine

/-- The tables of R72 to R78 are the widths and values of the opcode and the operands, laid out from bit 31 down. -/
theorem fieldTable_eq_fieldRows (i : Instr) : fieldTable i = fieldRows 32
    ((4, (specOf i.op).opcode.toNat) :: i.operands.map fun v => (operandWidth v.type, v.code)) := by
  cases i with
  | cjp l a b s => cases s <;> rfl
  | _ => rfl

end Sys2Proof.Machine

open Sys2Proof Sys2Proof.Machine

/-- Settles O3: the schemas are the registry's, and each row of a format's table is a row of the packed fields. -/
theorem formatsPlaceTheFields : Obligations.FormatsPlaceTheFields := by
  refine ⟨by decide, rfl, rfl, rfl, by decide, rfl, by decide, fun i hi row hrow => slice_encodeInstr ?_⟩
  rwa [map_widthAndValue_fields hi, ← fieldTable_eq_fieldRows]
end

section
/-! CLAIMS. The outcomes of the validation LUT (40_operand_types.md R100, R107, R108). A token either denotes a value,
whose field has the type's width, or fails with the type's one reason. A selector token denotes the restricted operation
whose mnemonic is its key, and `LOOKUP` finds that operation by the same key. -/

namespace Sys2Proof

/-- The two outcomes of R100, with the one reason of R108. -/
theorem validate_outcome (cfg : Cfg) (t : OperandType) (tok : Text) :
    (∃ b : Bits, validate cfg t tok = .ok b ∧ b.length = operandWidth t) ∨
      validate cfg t tok = .error (reasonOf t) := by
  cases hv : operandValue cfg t tok with
  | some v =>
    have width : (fieldBits v).length = operandWidth t := by rw [length_fieldBits, (operandValue_some hv).1]
    exact .inl ⟨fieldBits v, validate_ok_iff.mpr ⟨v, hv, rfl⟩, width⟩
  | none => exact .inr (by rw [validate, hv])

theorem lookup_of_matchKey {cfg : Cfg} {m : Text} {op : Op} (h : matchKey cfg m = (specOf op).mnemonic) :
    lookup cfg m = some (specOf op) := by
  rw [← lookup_mnemonic cfg op, lookup, lookup, h, matchKey_mnemonic]

theorem selectorOfToken_eq_some_iff {cfg : Cfg} {tok : Text} {s : Selector} :
    selectorOfToken cfg tok = some s ↔ matchKey cfg tok = (specOf (selectorOp s)).mnemonic := by
  constructor
  · intro h
    have found := List.find?_some h
    exact (beq_iff_eq.mp found).symm
  · intro h
    rw [← selectorOfToken_mnemonic cfg s, selectorOfToken, selectorOfToken, h, matchKey_mnemonic]

theorem validate_selector_ok_iff {cfg : Cfg} {tok : Text} {b : Bits} :
    validate cfg .bitwiseSelector tok = .ok b ↔
      ∃ s, matchKey cfg tok = (specOf (selectorOp s)).mnemonic ∧ b = fieldBits (.sel s) := by
  simp [validate_ok_iff, operandValue, selectorOfToken_eq_some_iff]

theorem validate_selector_error {cfg : Cfg} {tok : Text}
    (h : ∀ s, matchKey cfg tok ≠ (specOf (selectorOp s)).mnemonic) :
    validate cfg .bitwiseSelector tok = .error .invalidBitwiseSelector := by
  refine (validate_outcome cfg .bitwiseSelector tok).resolve_left ?_
  rintro ⟨b, hb, -⟩
  obtain ⟨s, hs, -⟩ := validate_selector_ok_iff.mp hb
  exact h s hs

/-- R107's order of trial: the first restricted mnemonic that is the key gives the bits. -/
theorem validate_selector_eq (cfg : Cfg) (tok : Text) : validate cfg .bitwiseSelector tok =
    if matchKey cfg tok = "AND".toList then .ok [true, false, false, false]
    else if matchKey cfg tok = "BOR".toList then .ok [true, false, false, true]
    else if matchKey cfg tok = "XOR".toList then .ok [true, false, true, false]
    else .error .invalidBitwiseSelector := by
  split_ifs with hAnd hBor hXor
  · exact validate_selector_ok_iff.mpr ⟨.and, hAnd, rfl⟩
  · exact validate_selector_ok_iff.mpr ⟨.bor, hBor, rfl⟩
  · exact validate_selector_ok_iff.mpr ⟨.xor, hXor, rfl⟩
  · refine validate_selector_error fun s => ?_
    cases s with
    | and => exact hAnd
    | bor => exact hBor
    | xor => exact hXor

theorem selectorOp_mem (s : Selector) : selectorOp s ∈ [Op.and, .bor, .xor] := by
  cases s <;> decide

end Sys2Proof

open Sys2Proof

/-- Settles O13: the key decides between the three mnemonics, and `LOOKUP` finds the selector's own row by that key. -/
theorem selectorOperandsValidate : Obligations.SelectorOperandsValidate := by
  refine fun cfg tok => ⟨validate_selector_eq cfg tok, fun b hb => ?_⟩
  obtain ⟨s, hkey, rfl⟩ := validate_selector_ok_iff.mp hb
  refine ⟨specOf (selectorOp s), lookup_of_matchKey hkey, ?_, rfl⟩
  rw [specOf_op]
  exact selectorOp_mem s

/-- Settles O14: the table's rows are the widths and reasons of the five types, and each type has the two outcomes. -/
theorem validationAnswersWidthOrReason : Obligations.ValidationAnswersWidthOrReason := by
  intro cfg tok row hrow
  obtain ⟨hwidth, hreason⟩ : row.2.1 = operandWidth row.1 ∧ row.2.2 = reasonOf row.1 := by
    revert row
    decide
  rw [hwidth, hreason]
  exact validate_outcome cfg row.1 tok
end

section
/-! CLAIMS. The word of a line whose arity fits (42_encoder.md R167, R168). No operand diagnostic is left exactly when
every operand validated, so a line emits its packed word or its operand diagnostics, never both. -/

namespace Sys2Proof

/-- Steps 1 to 3 of R161 accept a line with a known operation and the right number of operands. -/
theorem frontEnd_eq_ok {cfg : Cfg} {line m : Text} {ops : List Text} {spec : OperationSpec}
    (htok : lineTokens cfg line = m :: ops) (hlook : lookup cfg m = some spec)
    (harity : ops.length = spec.schema.length) (n : Nat) : frontEnd cfg line n = .ok (spec, ops) := by
  simp only [frontEnd, htok, hlook, if_pos harity]

theorem operandDiagnostics_eq_nil_iff {cfg : Cfg} {n : Nat} {ts : List OperandType} {toks : List Text} :
    operandDiagnostics cfg n ts toks = [] ↔ ∀ p ∈ ts.zip toks, ∃ b, validate cfg p.1 p.2 = .ok b := by
  induction ts generalizing toks with
  | nil => simp [operandDiagnostics]
  | cons t ts ih =>
    cases toks with
    | nil => simp [operandDiagnostics]
    | cons tok toks =>
      rw [operandDiagnostics, List.zip_cons_cons, List.forall_mem_cons]
      cases validate cfg t tok with
      | ok b => simpa using ih
      | error r => simp

theorem forall_exists_of_forall₂ {α β : Type} {R : α → β → Prop} {as : List α} {bs : List β}
    (h : List.Forall₂ R as bs) : ∀ a ∈ as, ∃ b, R a b :=
  ((List.forall₂_and_left _ _).mp (h.imp fun _ b hab => ⟨⟨b, hab⟩, hab⟩)).1

theorem operandBits_eq_flatten {cfg : Cfg} {ts : List OperandType} {toks : List Text} {bs : List Bits}
    (hvalid : List.Forall₂ (fun p b => validate cfg p.1 p.2 = .ok b) (ts.zip toks) bs) :
    operandBits cfg ts toks = bs.flatten := by
  induction ts generalizing toks bs with
  | nil => cases hvalid; rfl
  | cons t ts ih =>
    cases toks with
    | nil => cases hvalid; rfl
    | cons tok toks =>
      obtain _ | ⟨hb, hrest⟩ := hvalid
      rw [operandBits, hb, List.flatten_cons, ← ih hrest]

theorem length_operandBits {cfg : Cfg} {n : Nat} {ts : List OperandType} {toks : List Text}
    (harity : toks.length = ts.length) (hdiag : operandDiagnostics cfg n ts toks = []) :
    (operandBits cfg ts toks).length = widthSum ts := by
  obtain ⟨vs, -, hbits, htypes, -⟩ := operands_valid harity hdiag
  rw [hbits, length_flatMap_fieldBits, htypes]

theorem packWord_toNat_eq_uint {b : Bits} (h : b.length ≤ 32) :
    (packWord b).toNat = uint (b ++ zeros (32 - b.length)) := by
  rw [packWord_toNat h, uint_append, uint_zeros, length_zeros, Nat.add_zero]

/-- R168 on an accepted front end: without operand diagnostics, the packed word. -/
theorem encode_of_no_operandDiagnostics {cfg : Cfg} {line : Text} {n : Nat} {spec : OperationSpec} {ops : List Text}
    (hfront : frontEnd cfg line n = .ok (spec, ops)) (hdiag : operandDiagnostics cfg n spec.schema ops = []) :
    encode cfg line n =
      (.valid (packWord (bin opcodeWidth spec.opcode.toNat ++ operandBits cfg spec.schema ops)), []) := by
  simp only [encode, hfront, hdiag]

/-- R167 on an accepted front end: with operand diagnostics, these and no word. -/
theorem encode_of_operandDiagnostics {cfg : Cfg} {line : Text} {n : Nat} {spec : OperationSpec} {ops : List Text}
    (hfront : frontEnd cfg line n = .ok (spec, ops)) (hdiag : operandDiagnostics cfg n spec.schema ops ≠ []) :
    encode cfg line n = (.invalid, operandDiagnostics cfg n spec.schema ops) := by
  obtain ⟨d, ds, hcons⟩ := List.exists_cons_of_ne_nil hdiag
  simp only [encode, hfront, hcons]

end Sys2Proof

open Sys2Proof

/-- Settles O22: the operand diagnostics are empty exactly when every operand validated, and then the fields fill at
most the 28 bits below the opcode. -/
theorem validLinesEmitThePackedWord : Obligations.ValidLinesEmitThePackedWord := by
  intro cfg line n m ops spec htok hlook harity
  have hfront := frontEnd_eq_ok htok hlook harity n
  constructor
  · intro bs hvalid
    have hdiag : operandDiagnostics cfg n spec.schema ops = [] :=
      operandDiagnostics_eq_nil_iff.mpr (forall_exists_of_forall₂ hvalid)
    have hbits := operandBits_eq_flatten hvalid
    have hroom : bs.flatten.length ≤ 28 := by
      rw [← hbits, length_operandBits harity hdiag, (lookup_some hlook).1]
      exact schema_fits spec.op
    have hword : (bin opcodeWidth spec.opcode.toNat ++ bs.flatten).length = 4 + bs.flatten.length := by
      rw [List.length_append, length_bin]
    refine ⟨hroom, _, encode_of_no_operandDiagnostics hfront hdiag, ?_⟩
    rw [hbits, packWord_toNat_eq_uint (hword.trans_le (Nat.add_le_add_left hroom 4)), hword, Nat.add_sub_add_left 4 28]
  · rintro ⟨p, hp, hfail⟩
    have hdiag : operandDiagnostics cfg n spec.schema ops ≠ [] := fun h => by
      obtain ⟨b, hb⟩ := operandDiagnostics_eq_nil_iff.mp h p hp
      exact hfail b hb
    rw [encode_of_operandDiagnostics hfront hdiag]
    exact ⟨rfl, hdiag⟩
end

section
/-! CLAIMS. The word and its instruction (30_encoding.md R70, R79, R81 to R84; 43_decoder.md R191 to R194). Both round
trips compare a word, as a number above its padding, with the opcode and the operand fields that the instruction packs
there; only CJP's last field can fail to decode. -/

namespace Sys2Proof

/-! ### The padding -/

theorem paddingWidth_eq (op : Op) : paddingWidth op = 28 - widthSum (specOf op).schema := rfl

@[simp] theorem paddingWidth_cjp : paddingWidth .cjp = 0 := rfl

/-- The opcode lies above the operand fields, and these above the padding. -/
theorem div_padding_div_fields (x : Nat) (op : Op) :
    x / 2 ^ paddingWidth op / 2 ^ widthSum (specOf op).schema = x / 2 ^ 28 := by
  rw [Nat.div_div_eq_div_mul, ← pow_add, paddingWidth_eq, Nat.sub_add_cancel (schema_fits op)]

end Sys2Proof

namespace Sys2Proof.Machine

theorem clearPadding_toNat {w : Word} {op : Op} (h : (specOf op).opcode = opcodeField w) :
    (clearPadding w).toNat = w.toNat / 2 ^ paddingWidth op * 2 ^ paddingWidth op := by
  have fits : w.toNat / 2 ^ paddingWidth op * 2 ^ paddingWidth op < 2 ^ 32 :=
    (Nat.div_mul_le_self _ _).trans_lt w.isLt
  simp only [clearPadding, ← h, lookupByOpcode_specOf, specOf_op, BitVec.toNat_shiftLeft, BitVec.toNat_ushiftRight,
    Nat.shiftLeft_eq, Nat.shiftRight_eq_div_pow, Nat.mod_eq_of_lt fits]

/-- Clearing the padding changes nothing above it, the opcode included. -/
theorem opcodeField_clearPadding (w : Word) : opcodeField (clearPadding w) = opcodeField w := by
  obtain ⟨op, hop⟩ := opcode_assigned (opcodeField w)
  refine BitVec.eq_of_toNat_eq ?_
  rw [opcodeField_eq, opcodeField_eq, clearPadding_toNat hop, ← div_padding_div_fields _ op,
    Nat.mul_div_cancel _ (by positivity), div_padding_div_fields]

theorem clearPadding_of_cjp {w : Word} (h : opcodeField w = (specOf .cjp).opcode) : clearPadding w = w :=
  BitVec.eq_of_toNat_eq (by simp [clearPadding_toNat h.symm])

theorem clearPadding_eq_self_iff {w : Word} {op : Op} (h : (specOf op).opcode = opcodeField w) :
    clearPadding w = w ↔ slice w 0 (paddingWidth op) = 0 := by
  rw [BitVec.toNat_eq, clearPadding_toNat h, slice_eq, pow_zero, Nat.div_one, ← Nat.dvd_iff_div_mul_eq,
    Nat.dvd_iff_mod_eq_zero]

end Sys2Proof.Machine

/-! ### The round trips -/

namespace Sys2Proof

/-- The fields of an instruction fill the width of its schema. -/
theorem uint_fields_lt (i : Instr) : uint (i.operands.flatMap fieldBits) < 2 ^ widthSum (specOf i.op).schema := by
  have h := uint_lt (i.operands.flatMap fieldBits)
  rwa [length_flatMap_fieldBits, operands_types] at h

/-- An encoded word above its padding: the opcode, then the fields. -/
theorem encodeInstr_div_padding (i : Instr) : (encodeInstr i).toNat / 2 ^ paddingWidth i.op =
    (specOf i.op).opcode.toNat * 2 ^ widthSum (specOf i.op).schema + uint (i.operands.flatMap fieldBits) := by
  rw [encodeInstr_toNat, ← paddingWidth_eq, Nat.mul_div_cancel _ (by positivity)]

@[simp] theorem opcodeField_encodeInstr (i : Instr) : opcodeField (encodeInstr i) = (specOf i.op).opcode := by
  refine BitVec.eq_of_toNat_eq ?_
  rw [opcodeField_eq, ← div_padding_div_fields _ i.op, encodeInstr_div_padding, Nat.add_comm,
    Nat.add_mul_div_right _ _ (by positivity), Nat.div_eq_of_lt (uint_fields_lt i), Nat.zero_add]

theorem decodeInstr_encodeInstr {i : Instr} (hi : i.WellFormed) : decodeInstr (encodeInstr i) = .ok i := by
  have fields : (encodeInstr i).toNat / 2 ^ paddingWidth i.op % 2 ^ widthSum (specOf i.op).schema =
      uint (i.operands.flatMap fieldBits) := by
    rw [encodeInstr_div_padding, Nat.mul_add_mod', Nat.mod_eq_of_lt (uint_fields_lt i)]
  have operands := decodeOperands_of_bits (encodeInstr i) i.operands 28 ((wellFormed_iff i).mp hi)
  rw [operands_types] at operands
  exact decodeInstr_of_operands (opcodeField_encodeInstr i) (operands (schema_fits i.op) fields)

theorem decodeInstr_ok_wellFormed {w : Word} {i : Instr} (h : decodeInstr w = .ok i) : i.WellFormed := by
  obtain ⟨-, inDomain, -⟩ := decodeInstr_ok h
  exact (wellFormed_iff i).mpr inDomain

theorem decodeInstr_ok_opcode {w : Word} {i : Instr} (h : decodeInstr w = .ok i) :
    (specOf i.op).opcode = opcodeField w := by
  obtain ⟨opcode, -, -⟩ := decodeInstr_ok h
  exact opcode

end Sys2Proof

namespace Sys2Proof.Machine

theorem encodeInstr_of_decodeInstr {w : Word} {i : Instr} (h : decodeInstr w = .ok i) :
    encodeInstr i = clearPadding w := by
  obtain ⟨opcode, -, fields⟩ := decodeInstr_ok h
  rw [← paddingWidth_eq] at fields
  have above : w.toNat / 2 ^ paddingWidth i.op =
      (specOf i.op).opcode.toNat * 2 ^ widthSum (specOf i.op).schema + uint (i.operands.flatMap fieldBits) := by
    rw [opcode, opcodeField_eq, ← div_padding_div_fields _ i.op, ← fields, Nat.mul_comm, Nat.div_add_mod]
  refine BitVec.eq_of_toNat_eq ?_
  rw [clearPadding_toNat opcode, above, encodeInstr_toNat, paddingWidth_eq]

@[simp] theorem clearPadding_encodeInstr {i : Instr} (hi : i.WellFormed) :
    clearPadding (encodeInstr i) = encodeInstr i :=
  (encodeInstr_of_decodeInstr (decodeInstr_encodeInstr hi)).symm

end Sys2Proof.Machine

open Sys2Proof Sys2Proof.Machine

/-- Settles O1: the operand stage reads back the fields that the encoder packed below the opcode. -/
theorem decodeInvertsEncodeInstr : Obligations.DecodeInvertsEncodeInstr :=
  fun _ => decodeInstr_encodeInstr

/-- Settles O2: above its padding, a word that decodes is the opcode and the fields of its instruction. -/
theorem encodeInvertsDecodeInstr : Obligations.EncodeInvertsDecodeInstr :=
  fun _ _ h => ⟨decodeInstr_ok_wellFormed h, encodeInstr_of_decodeInstr h⟩

/-- Settles O7, by running the decoder on the sixteen words. -/
theorem writtenOutWordsDecode : Obligations.WrittenOutWordsDecode := by
  unfold Obligations.WrittenOutWordsDecode
  decide
end

section
/-! CLAIMS. The words that do not decode (30_encoding.md R81, R82; 43_decoder.md R192, R194). The operand stage fails at
a selector field only, and CJP alone has one, in the word's low four bits. -/

namespace Sys2Proof

/-- The decoder fails exactly where the operand stage of the word's operation does. -/
theorem decodeWord_eq_error_iff {w : Word} {op : Op} (h : (specOf op).opcode = opcodeField w) (e : DecodeFail) :
    decodeWord w = .error e ↔ decodeOperands w (specOf op).schema 28 = .error e := by
  simp only [decodeWord, decodeFields, ← h, lookupByOpcode_specOf]
  cases decodeOperands w (specOf op).schema 28 with
  | ok vs => simp
  | error e' => simp

theorem selectorLut_eq_none_iff (f : BitVec 4) : selectorLut f = none ↔ f.toNat ∉ [8, 9, 10] := by
  revert f
  decide

theorem selector_notMem_schema {op : Op} (h : op ≠ .cjp) : .bitwiseSelector ∉ (specOf op).schema := by
  cases op with
  | cjp => exact absurd rfl h
  | _ => decide

/-- CJP's operand stage fails exactly where the selector field names no selector. -/
theorem decodeOperands_cjp_eq_error_iff (w : Word) (e : DecodeFail) :
    decodeOperands w (specOf .cjp).schema 28 = .error e ↔ e = .unknownSelectorBits ∧ slice w 0 4 ∉ [8, 9, 10] := by
  have low : (BitVec.ofNat 4 (slice w 0 4)).toNat = slice w 0 4 := by
    rw [BitVec.toNat_ofNat, Nat.mod_eq_of_lt (slice_lt w 0 4)]
  have stage : decodeOperands w (specOf .cjp).schema 28 =
      match selectorLut (BitVec.ofNat 4 (slice w 0 4)) with
      | none => .error .unknownSelectorBits
      | some s => .ok [.line (slice w 12 16), .reg (slice w 8 4), .reg (slice w 4 4), .sel s] := by
    simp only [specOf, decodeOperands, fieldValue, operandWidth, operandTypeRom]
    cases selectorLut (BitVec.ofNat 4 (slice w 0 4)) <;> rfl
  have none_iff := selectorLut_eq_none_iff (BitVec.ofNat 4 (slice w 0 4))
  rw [low] at none_iff
  rw [stage, ← none_iff]
  cases selectorLut (BitVec.ofNat 4 (slice w 0 4)) with
  | none => simp [eq_comm]
  | some s => simp

theorem decodeWord_ok_of_ne_cjp {w : Word} {op : Op} (h : (specOf op).opcode = opcodeField w) (hop : op ≠ .cjp) :
    ∃ t, decodeWord w = .ok t := by
  obtain ⟨vs, hvs⟩ := decodeOperands_isOk (selector_notMem_schema hop) w 28
  cases hw : decodeWord w with
  | ok t => exact ⟨t, rfl⟩
  | error e => simp [(decodeWord_eq_error_iff h e).mp hw] at hvs

theorem decodeWord_eq_error_iff_cjp (w : Word) (e : DecodeFail) : decodeWord w = .error e ↔
    e = .unknownSelectorBits ∧ opcodeField w = (specOf .cjp).opcode ∧ slice w 0 4 ∉ [8, 9, 10] := by
  obtain ⟨op, hop⟩ := opcode_assigned (opcodeField w)
  by_cases hcjp : op = .cjp
  · subst hcjp
    rw [decodeWord_eq_error_iff hop, decodeOperands_cjp_eq_error_iff]
    simp [hop]
  · obtain ⟨t, ht⟩ := decodeWord_ok_of_ne_cjp hop hcjp
    have opcode_ne : opcodeField w ≠ (specOf .cjp).opcode := fun h => hcjp (opcode_injective (hop.trans h))
    simp [ht, opcode_ne]

end Sys2Proof

open Sys2Proof

/-- Settles O5: CJP alone has a selector, and the selector table is empty outside 8, 9 and 10. -/
theorem decodeFailsExactlyOnBadSelectors : Obligations.DecodeFailsExactlyOnBadSelectors :=
  decodeWord_eq_error_iff_cjp
end

section
/-! CLAIMS. The round trips through text (43_decoder.md R197 to R200; 30_encoding.md R83). A canonical text denotes its
instruction, so text and word carry the same instruction, and the padding is what a word can hold beyond it. -/

namespace Sys2Proof

theorem decodeWord_of_decodeInstr {w : Word} {i : Instr} (h : decodeInstr w = .ok i) :
    decodeWord w = .ok (instrText i) := by
  simp only [decodeWord_eq, h]

theorem exists_instr_of_decodeWord {w : Word} {t : Text} (h : decodeWord w = .ok t) :
    ∃ i, decodeInstr w = .ok i ∧ t = instrText i := by
  rw [decodeWord_eq] at h
  cases hi : decodeInstr w with
  | ok i => exact ⟨i, rfl, by simpa [hi, eq_comm] using h⟩
  | error e => simp [hi] at h

end Sys2Proof

namespace Sys2Proof.Machine

theorem encode_instrText {cfg : Cfg} (hcfg : ReadsRenderedText cfg) {i : Instr} (hi : i.WellFormed) (n : Nat) :
    encode cfg (instrText i) n = (.valid (encodeInstr i), []) :=
  encode_valid_iff.mpr ⟨i, lineInstr_instrText hcfg hi, rfl, rfl⟩

theorem encode_decodeWord {cfg : Cfg} (hcfg : ReadsRenderedText cfg) {w : Word} {t : Text} (h : decodeWord w = .ok t)
    (n : Nat) : encode cfg t n = (.valid (clearPadding w), []) := by
  obtain ⟨i, hi, rfl⟩ := exists_instr_of_decodeWord h
  rw [encode_instrText hcfg (decodeInstr_ok_wellFormed hi), encodeInstr_of_decodeInstr hi]

/-- A word that decodes keeps its instruction when its padding is cleared; one that fails is CJP's, with no padding. -/
theorem decodeWord_clearPadding (w : Word) : decodeWord (clearPadding w) = decodeWord w := by
  cases h : decodeWord w with
  | ok t =>
    obtain ⟨i, hi, rfl⟩ := exists_instr_of_decodeWord h
    rw [← encodeInstr_of_decodeInstr hi]
    exact decodeWord_of_decodeInstr (decodeInstr_encodeInstr (decodeInstr_ok_wellFormed hi))
  | error e =>
    obtain ⟨-, opcode, -⟩ := (decodeWord_eq_error_iff_cjp w e).mp h
    rw [clearPadding_of_cjp opcode, h]

theorem clearPadding_of_encode {cfg : Cfg} {line : Text} {n : Nat} {w : Word} {ds : List Diagnostic}
    (h : encode cfg line n = (.valid w, ds)) : clearPadding w = w := by
  obtain ⟨i, hi, rfl, -⟩ := encode_valid_iff.mp h
  exact clearPadding_encodeInstr (lineInstr_wellFormed hi)

/-- Every operation with padding has a word whose padding is not zero. -/
theorem exists_padded_word {op : Op} (h : op ≠ .cjp) :
    ∃ w, opcodeField w = (specOf op).opcode ∧ clearPadding w ≠ w := by
  have opcode : opcodeField ((specOf op).opcode ++ 1#28) = (specOf op).opcode := by
    cases op <;> decide
  refine ⟨_, opcode, fun hclear => ?_⟩
  have zero := (clearPadding_eq_self_iff opcode.symm).mp hclear
  cases op with
  | cjp => exact h rfl
  | _ => revert zero; decide

end Sys2Proof.Machine

open Sys2Proof Sys2Proof.Machine

/-- Settles O26: a line and the canonical text of its instruction denote the same instruction. -/
theorem encodeThenDecodeIsCanonicalForm : Obligations.EncodeThenDecodeIsCanonicalForm := by
  intro cfg line n w h
  obtain ⟨i, hline, rfl, -⟩ := encode_valid_iff.mp h
  have hi := lineInstr_wellFormed hline
  refine ⟨instrText i, by rw [canonicalLine, hline, Option.map_some],
    decodeWord_of_decodeInstr (decodeInstr_encodeInstr hi), fun hcfg => ⟨?_, encode_instrText hcfg hi⟩⟩
  rw [canonicalLine, lineInstr_instrText hcfg hi, Option.map_some]

/-- Settles O27: the text denotes the word's instruction, whose word is the given one with its padding cleared. -/
theorem decodeThenEncodeClearsPadding : Obligations.DecodeThenEncodeClearsPadding :=
  fun _ hcfg _ _ n h => ⟨encode_decodeWord hcfg h n, clearPadding_of_cjp⟩

/-- Settles O4: the encoder's words carry an instruction and nothing else, and the decoder reads nothing else. -/
theorem paddingIsZeroedAndIgnored : Obligations.PaddingIsZeroedAndIgnored := by
  refine ⟨fun w => ?_, fun _ _ _ _ _ => clearPadding_of_encode, decodeWord_clearPadding,
    fun cfg hcfg w t n h hne he => ?_⟩
  · obtain ⟨op, hop⟩ := opcode_assigned (opcodeField w)
    rw [clearPadding_eq_self_iff hop]
    refine ⟨fun zero op' hop' => ?_, fun zero => zero op hop⟩
    rwa [opcode_injective (hop'.trans hop.symm)]
  · rw [encode_decodeWord hcfg h] at he
    exact hne (by simpa using he)

/-- Settles O6: a text encodes to the one word with zero padding that decodes to it; a padded word and its cleared form
are two words with one text. -/
theorem decodeIsInjectiveOnZeroPadding : Obligations.DecodeIsInjectiveOnZeroPadding := by
  constructor
  · intro w w' t hw hw' ht ht'
    have h := encode_decodeWord defaultCfg_readsRenderedText ht 0
    rw [encode_decodeWord defaultCfg_readsRenderedText ht', hw, hw'] at h
    simpa using h.symm
  · intro op hop
    obtain ⟨w, hw, padded⟩ := exists_padded_word hop
    obtain ⟨t, ht⟩ := decodeWord_ok_of_ne_cjp hw.symm hop
    have ht' : decodeWord (clearPadding w) = .ok t := (decodeWord_clearPadding w).trans ht
    exact ⟨clearPadding w, w, t, padded, (opcodeField_clearPadding w).trans hw, hw, ht', ht⟩
end

section
/-! CLAIMS. The sixteen meanings (41_operations.md R131 to R146). Each passes one word and one text through the block;
the word is the packed one of R70, read as a sum of placed fields, and the text is the rendered one of R195. -/

namespace Sys2Proof

/-! ### The packed word as a sum -/

/-- The fields of `vs` from bit `top - 1` down, each code at its field's lowest bit. -/
def placedFields : Nat → List Value → Nat
  | _, [] => 0
  | top, v :: vs => v.code * 2 ^ (top - operandWidth v.type) + placedFields (top - operandWidth v.type) vs

theorem uint_fields_mul_eq_placedFields {vs : List Value} {top : Nat} (hd : ∀ v ∈ vs, v.InDomain)
    (hfit : widthSum (vs.map Value.type) ≤ top) :
    uint (vs.flatMap fieldBits) * 2 ^ (top - widthSum (vs.map Value.type)) = placedFields top vs := by
  induction vs generalizing top with
  | nil => simp [placedFields]
  | cons v vs ih =>
    simp only [List.forall_mem_cons] at hd
    obtain ⟨hv, hvs⟩ := hd
    simp only [List.map_cons, widthSum, List.sum_cons] at hfit ih ⊢
    have hrest := Nat.le_sub_of_add_le' hfit
    have hwidth := length_flatMap_fieldBits vs
    simp only [widthSum] at hwidth
    rw [List.flatMap_cons, uint_append, uint_fieldBits hv, hwidth, Nat.add_mul, Nat.mul_assoc, ← pow_add,
      ← Nat.sub_sub, Nat.add_sub_cancel' hrest, ih hvs hrest, placedFields]

theorem encodeInstr_toNat_eq_placedFields {i : Instr} (hi : i.WellFormed) :
    (encodeInstr i).toNat = (specOf i.op).opcode.toNat * 2 ^ 28 + placedFields 28 i.operands := by
  have hfit := schema_fits i.op
  have fields := uint_fields_mul_eq_placedFields ((wellFormed_iff i).mp hi) (operands_types i ▸ hfit)
  rw [operands_types] at fields
  rw [encodeInstr_toNat, Nat.add_mul, Nat.mul_assoc, ← pow_add, Nat.add_sub_cancel' hfit, fields]

end Sys2Proof

namespace Sys2Proof.Machine

/-! ### The rendered text -/

theorem decimal_eq_toDigits (n : Nat) : decimal n = Nat.toDigits 10 n := decimalWith_eq (n + 1) n [] n.lt_succ_self

theorem cons_renderOperand_imm (v : Int) : ' ' :: renderOperand (.imm v) = spaceImm v := by
  simp only [renderOperand, spaceImm]
  split <;> rfl

theorem renderOperand_sel (s : Selector) : renderOperand (.sel s) = selectorText s := by
  cases s <;> rfl

/-! ### The formats: the word and the text of a list of operands -/

theorem wordRRR_eq_placedFields {op a b c : Nat} (ho : op < 16) (ha : a < 16) (hb : b < 16) (hc : c < 16) :
    (wordRRR op a b c).toNat = op * 2 ^ 28 + placedFields 28 [.reg a, .reg b, .reg c] := by
  simp [wordRRR_toNat ho ha hb hc, placedFields, Value.code, Value.type, operandWidth, operandTypeRom, Nat.add_assoc]

theorem wordL_eq_placedFields {op l : Nat} (ho : op < 16) (hl : l < 65536) :
    (wordL op l).toNat = op * 2 ^ 28 + placedFields 28 [.line l] := by
  simp [wordL_toNat ho hl, placedFields, Value.code, Value.type, operandWidth, operandTypeRom]

theorem wordLRRS_eq_placedFields {op l a b : Nat} (s : Selector) (ho : op < 16) (hl : l < 65536) (ha : a < 16)
    (hb : b < 16) : (wordLRRS op l a b (selectorCode s)).toNat =
      op * 2 ^ 28 + placedFields 28 [.line l, .reg a, .reg b, .sel s] := by
  have hsel : selectorCode s < 16 := by cases s <;> decide
  have code : selectorCode s = Value.code (.sel s) := by cases s <;> rfl
  rw [wordLRRS_toNat ho hl ha hb hsel, code]
  simp [placedFields, Value.code, Value.type, operandWidth, operandTypeRom, Nat.add_assoc]

theorem wordRI_eq_placedFields {op a : Nat} (v : Int) (ho : op < 16) (ha : a < 16) :
    (wordRI op a v).toNat = op * 2 ^ 28 + placedFields 28 [.reg a, .imm v] := by
  simp [wordRI_toNat v ho ha, placedFields, Value.code, Value.type, operandWidth, operandTypeRom, Nat.add_assoc]

theorem wordRR_eq_placedFields {op a b : Nat} (ho : op < 16) (ha : a < 16) (hb : b < 16) :
    (wordRR op a b).toNat = op * 2 ^ 28 + placedFields 28 [.reg a, .reg b] := by
  simp [wordRR_toNat ho ha hb, placedFields, Value.code, Value.type, operandWidth, operandTypeRom, Nat.add_assoc]

theorem wordMR_eq_placedFields {op m a : Nat} (ho : op < 16) (hm : m < 256) (ha : a < 16) :
    (wordMR op m a).toNat = op * 2 ^ 28 + placedFields 28 [.ram m, .reg a] := by
  simp [wordMR_toNat ho hm ha, placedFields, Value.code, Value.type, operandWidth, operandTypeRom, Nat.add_assoc]

theorem textRRR_eq_renderOperands (m : Text) (a b c : Nat) :
    textRRR m a b c = m ++ renderOperands [.reg a, .reg b, .reg c] := by
  simp [textRRR, renderOperands, renderOperand, spaceReg, operandTypeRom]

theorem textL_eq_renderOperands (m : Text) (l : Nat) : textL m l = m ++ renderOperands [.line l] := by
  simp [textL, renderOperands, renderOperand, spaceLine, operandTypeRom]

theorem textLRRS_eq_renderOperands (m : Text) (l a b : Nat) (s : Selector) :
    textLRRS m l a b s = m ++ renderOperands [.line l, .reg a, .reg b, .sel s] := by
  simp [textLRRS, renderOperands, ← renderOperand_sel, renderOperand, spaceLine, spaceReg, operandTypeRom]

theorem textRI_eq_renderOperands (m : Text) (a : Nat) (v : Int) :
    textRI m a v = m ++ renderOperands [.reg a, .imm v] := by
  simp [textRI, renderOperands, ← cons_renderOperand_imm, renderOperand, spaceReg, operandTypeRom]

theorem textRR_eq_renderOperands (m : Text) (a b : Nat) :
    textRR m a b = m ++ renderOperands [.reg a, .reg b] := by
  simp [textRR, renderOperands, renderOperand, spaceReg, operandTypeRom]

theorem textMR_eq_renderOperands (m : Text) (ram a : Nat) :
    textMR m ram a = m ++ renderOperands [.ram ram, .reg a] := by
  simp [textMR, renderOperands, renderOperand, spaceRam, spaceReg, operandTypeRom]

/-! ### What a meaning does to the state -/

theorem State.answer_eq_afterAnswer (s : State) (a : Answer) : s.answer a = afterAnswer s a := rfl

theorem State.recordLine_eq_afterLine (s : State) (r : LineResult) (ds : List Diagnostic) :
    s.recordLine r ds = afterLine s r ds := rfl

theorem convert_eq_converted (w : Word) (t : Text) (s : State) : convert w t s = .next (converted s w t) := rfl

/-- A meaning agrees with the encoder and the renderer if its word and its text do. -/
theorem exec_eq_of_convert {i : Instr} {s : State} {w : Word} {t : Text} (hi : i.WellFormed)
    (hexec : exec i s = convert w t s)
    (hword : w.toNat = (specOf i.op).opcode.toNat * 2 ^ 28 + placedFields 28 i.operands)
    (htext : t = render (specOf i.op) i.operands) :
    exec i s = .next (converted s (encodeInstr i) (render (specOf i.op) i.operands)) := by
  have word_eq : w = encodeInstr i :=
    BitVec.eq_of_toNat_eq (hword.trans (encodeInstr_toNat_eq_placedFields hi).symm)
  rw [hexec, convert_eq_converted, word_eq, htext]

theorem exec_eq_converted {i : Instr} (hi : i.WellFormed) (s : State) :
    exec i s = .next (converted s (encodeInstr i) (render (specOf i.op) i.operands)) := by
  cases i with
  | add a b c | sub a b c | grt a b c | eql a b c | and a b c | bor a b c | xor a b c =>
    obtain ⟨ha, hb, hc⟩ := of_decide_eq_true hi
    exact exec_eq_of_convert hi rfl (wordRRR_eq_placedFields (by decide) ha hb hc) (textRRR_eq_renderOperands _ a b c)
  | rrd a b | not a b | inv a b =>
    obtain ⟨ha, hb⟩ := of_decide_eq_true hi
    exact exec_eq_of_convert hi rfl (wordRR_eq_placedFields (by decide) ha hb) (textRR_eq_renderOperands _ a b)
  | rld m a | rms m a =>
    obtain ⟨hm, ha⟩ := of_decide_eq_true hi
    exact exec_eq_of_convert hi rfl (wordMR_eq_placedFields (by decide) hm ha) (textMR_eq_renderOperands _ m a)
  | jmp l =>
    exact exec_eq_of_convert hi rfl (wordL_eq_placedFields (by decide) (of_decide_eq_true hi))
      (textL_eq_renderOperands _ l)
  | rst a v =>
    obtain ⟨ha, -⟩ := of_decide_eq_true hi
    exact exec_eq_of_convert hi rfl (wordRI_eq_placedFields v (by decide) ha) (textRI_eq_renderOperands _ a v)
  | rcl => exact exec_eq_of_convert hi rfl (wordN_toNat (by decide)) rfl
  | cjp l a b sel =>
    obtain ⟨hl, ha, hb⟩ := of_decide_eq_true hi
    exact exec_eq_of_convert hi rfl (wordLRRS_eq_placedFields sel (by decide) hl ha hb)
      (textLRRS_eq_renderOperands _ l a b sel)

end Sys2Proof.Machine

open Sys2Proof Sys2Proof.Machine

/-- Settles O28: the placed fields of each format add up to the packed word, and its text is the rendered row. -/
theorem meaningsAgreeWithEncoderAndRenderer : Obligations.MeaningsAgreeWithEncoderAndRenderer :=
  fun _ s hi => exec_eq_converted hi s
end

section
/-! CLAIMS. The instructions one format at a time, in the numbers of 41_operations.md R131 to R146: the word as or-ed
fields, the text with base-10 digits, and the whole next state. -/

namespace Sys2Proof.Machine

/-! ### The operands' texts -/

theorem spaceReg_eq_toDigits (n : Nat) : spaceReg n = " rg".toList ++ Nat.toDigits 10 n := by
  rw [spaceReg, decimal_eq_toDigits]; rfl

theorem spaceRam_eq_toDigits (n : Nat) : spaceRam n = " rm".toList ++ Nat.toDigits 10 n := by
  rw [spaceRam, decimal_eq_toDigits]; rfl

theorem spaceLine_eq_toDigits (n : Nat) : spaceLine n = " ln".toList ++ Nat.toDigits 10 n := by
  rw [spaceLine, decimal_eq_toDigits]; rfl

theorem spaceImm_eq_toDigits (v : Int) :
    spaceImm v = " ".toList ++ (if v < 0 then ['-'] else []) ++ Nat.toDigits 10 v.natAbs := by
  rw [spaceImm, decimal_eq_toDigits]
  split <;> rfl

/-! ### The formats -/

theorem convert_RRR (s : State) (m : Text) (op a b c : Nat) :
    convert (wordRRR op a b c) (textRRR m a b c) s = .next (converted s
      (BitVec.ofNat 32 ((op <<< 28) ||| (a <<< 24) ||| (b <<< 20) ||| (c <<< 16)))
      (m ++ " rg".toList ++ Nat.toDigits 10 a ++ " rg".toList ++ Nat.toDigits 10 b ++
        " rg".toList ++ Nat.toDigits 10 c)) := by
  simp only [convert_eq_converted, wordRRR_eq, textRRR, spaceReg_eq_toDigits, List.append_assoc]

theorem convert_RR (s : State) (m : Text) (op a b : Nat) :
    convert (wordRR op a b) (textRR m a b) s = .next (converted s
      (BitVec.ofNat 32 ((op <<< 28) ||| (a <<< 24) ||| (b <<< 20)))
      (m ++ " rg".toList ++ Nat.toDigits 10 a ++ " rg".toList ++ Nat.toDigits 10 b)) := by
  simp only [convert_eq_converted, wordRR_eq, textRR, spaceReg_eq_toDigits, List.append_assoc]

theorem convert_MR (s : State) (m : Text) (op ram a : Nat) :
    convert (wordMR op ram a) (textMR m ram a) s = .next (converted s
      (BitVec.ofNat 32 ((op <<< 28) ||| (ram <<< 20) ||| (a <<< 16)))
      (m ++ " rm".toList ++ Nat.toDigits 10 ram ++ " rg".toList ++ Nat.toDigits 10 a)) := by
  simp only [convert_eq_converted, wordMR_eq, textMR, spaceRam_eq_toDigits, spaceReg_eq_toDigits, List.append_assoc]

theorem convert_L (s : State) (m : Text) (op l : Nat) :
    convert (wordL op l) (textL m l) s = .next (converted s (BitVec.ofNat 32 ((op <<< 28) ||| (l <<< 12)))
      (m ++ " ln".toList ++ Nat.toDigits 10 l)) := by
  simp only [convert_eq_converted, wordL_eq, textL, spaceLine_eq_toDigits, List.append_assoc]

theorem convert_LRRS (s : State) (m : Text) (op l a b : Nat) (sel : Selector) :
    convert (wordLRRS op l a b (selectorCode sel)) (textLRRS m l a b sel) s = .next (converted s
      (BitVec.ofNat 32 ((op <<< 28) ||| (l <<< 12) ||| (a <<< 8) ||| (b <<< 4) ||| selectorCode sel))
      (m ++ " ln".toList ++ Nat.toDigits 10 l ++ " rg".toList ++ Nat.toDigits 10 a ++
        " rg".toList ++ Nat.toDigits 10 b ++ ' ' :: selectorText sel)) := by
  simp only [convert_eq_converted, wordLRRS_eq, textLRRS, spaceLine_eq_toDigits, spaceReg_eq_toDigits,
    List.append_assoc]

theorem convert_RI (s : State) (m : Text) (op a : Nat) (v : Int) :
    convert (wordRI op a v) (textRI m a v) s = .next (converted s (wordRI op a v)
      (m ++ " rg".toList ++ Nat.toDigits 10 a ++ " ".toList ++ (if v < 0 then ['-'] else []) ++
        Nat.toDigits 10 v.natAbs)) := by
  simp only [convert_eq_converted, textRI, spaceReg_eq_toDigits, spaceImm_eq_toDigits, List.append_assoc]

/-- The immediate field of format `RI`, and the padding below it (R75). -/
theorem slices_wordRI {op a : Nat} (v : Int) (ho : op < 16) (ha : a < 16) :
    slice (wordRI op a v) 0 8 = 0 ∧ slice (wordRI op a v) 8 16 = (v % 65536).toNat := by
  rw [slice_eq, slice_eq, wordRI_toNat v ho ha]
  omega

end Sys2Proof.Machine

namespace Sys2Proof

/-- RCL has no operands, so its opcode alone decides (R142). -/
theorem decodeInstr_eq_rcl_iff (w : Word) : decodeInstr w = .ok .rcl ↔ w.toNat / 2 ^ 28 = 7 := by
  rw [← opcodeField_eq]
  constructor
  · intro h
    rw [← decodeInstr_ok_opcode h]
    rfl
  · intro h
    exact decodeInstr_of_operands (BitVec.eq_of_toNat_eq h) rfl

end Sys2Proof

open Sys2Proof Sys2Proof.Machine

/-- Settles O29: the seven rows are one format. -/
theorem threeRegisterInstructions : Obligations.ThreeRegisterInstructions := by
  intro a b c s _ _ _ row hrow
  simp only [List.mem_cons, List.not_mem_nil, or_false] at hrow
  rcases hrow with rfl | rfl | rfl | rfl | rfl | rfl | rfl
  all_goals exact convert_RRR s _ _ a b c

/-- Settles O30: the three rows are one format. -/
theorem twoRegisterInstructions : Obligations.TwoRegisterInstructions := by
  intro a b s _ _ row hrow
  simp only [List.mem_cons, List.not_mem_nil, or_false] at hrow
  rcases hrow with rfl | rfl | rfl
  all_goals exact convert_RR s _ _ a b

/-- Settles O31: the two rows are one format. -/
theorem ramInstructions : Obligations.RamInstructions := by
  intro m a s _ _ row hrow
  simp only [List.mem_cons, List.not_mem_nil, or_false] at hrow
  rcases hrow with rfl | rfl
  all_goals exact convert_MR s _ _ m a

/-- Settles O32: CJP's three rows differ in the selector's field and name. -/
theorem jumpInstructions : Obligations.JumpInstructions := by
  intro l a b s _ _ _
  refine ⟨convert_L s _ _ l, fun row hrow => ?_⟩
  simp only [List.mem_cons, List.not_mem_nil, or_false] at hrow
  rcases hrow with rfl | rfl | rfl
  · exact convert_LRRS s _ _ l a b .and
  · exact convert_LRRS s _ _ l a b .bor
  · exact convert_LRRS s _ _ l a b .xor

/-- Settles O33: the immediate's field is its residue, which `sint` takes back to the immediate. -/
theorem registerSetInstruction : Obligations.RegisterSetInstruction := by
  intro a v s ha hlow hhigh
  obtain ⟨padding, field⟩ := slices_wordRI (op := 0x5) v (by decide) ha
  exact ⟨wordRI 0x5 a v, wordRI_eq 0x5 a v, padding, by rw [field, sint_emod ⟨hlow, hhigh⟩], convert_RI s _ _ a v⟩

/-- Settles O34: the one word and text are those of format `N`. -/
theorem registerClearInstruction : Obligations.RegisterClearInstruction :=
  ⟨fun _ => rfl, decodeInstr_eq_rcl_iff⟩
end

section
/-! CLAIMS. The port operations, one step each (00_scope.md R8; 42_encoder.md R171; 43_decoder.md R190;
44_diagnostics_batch.md R215). A step serves the head of the queue; the meanings' agreement with the encoder and the
renderer makes `ENCODE_LINE` and `DECODE_WORD` the pure functions on the state. -/

namespace Sys2Proof.Machine

theorem step_of_cons {s : State} {r : Request} {rest : List Request} (h : s.requests = r :: rest) :
    step s = serve r s := by
  rw [step, h]

theorem isDecoding_of_decodeWord {s : State} {w : Word} {rest : List Request} (h : s.requests = .decodeWord w :: rest) :
    s.isDecoding = true := by
  rw [State.isDecoding, h]

theorem isDecoding_of_encodeLine {s : State} {line : Text} {rest : List Request}
    (h : s.requests = .encodeLine line :: rest) : s.isDecoding = false := by
  rw [State.isDecoding, h]

/-! ### The two ports that run a meaning -/

theorem step_decodeWord_ok {s : State} {w : Word} {rest : List Request} {i : Instr}
    (h : s.requests = .decodeWord w :: rest) (hi : decodeInstr w = .ok i) : step s = exec i s := by
  simp only [step_of_cons h, serve, serveDecodeWord, hi]

theorem step_encodeLine_some {s : State} {line : Text} {rest : List Request} {i : Instr}
    (h : s.requests = .encodeLine line :: rest) (hi : lineInstr s.cfg line = some i) : step s = exec i s := by
  simp only [step_of_cons h, serve, serveEncodeLine, hi]

theorem step_encodeLine {s : State} {line : Text} {rest : List Request} (h : s.requests = .encodeLine line :: rest) :
    step s = .next (afterLine s (encode s.cfg line (s.lineCtr + 1)).1 (encode s.cfg line (s.lineCtr + 1)).2) := by
  cases hi : lineInstr s.cfg line with
  | some i =>
    rw [step_encodeLine_some h hi, exec_eq_converted (lineInstr_wellFormed hi), converted,
      isDecoding_of_encodeLine h, (encode_of_some hi _).1]
    rfl
  | none =>
    have invalid := (encode_of_none hi (s.lineCtr + 1)).1
    simp only [step_of_cons h, serve, serveEncodeLine, hi, invalid, State.recordFailure, State.recordLine_eq_afterLine]

theorem step_decodeWord {s : State} {w : Word} {rest : List Request} (h : s.requests = .decodeWord w :: rest) :
    step s = .next (afterAnswer s (decodeAnswer w)) := by
  cases hd : decodeInstr w with
  | ok i =>
    rw [step_decodeWord_ok h hd, exec_eq_converted (decodeInstr_ok_wellFormed hd), converted,
      isDecoding_of_decodeWord h, if_pos rfl, decodeAnswer, decodeWord_of_decodeInstr hd, instrText]
  | error e =>
    obtain rfl := decodeInstr_error hd
    have failed : decodeWord w = .error .unknownSelectorBits := by simp only [decodeWord_eq, hd]
    simp only [step_of_cons h, serve, serveDecodeWord, hd, decodeAnswer, failed, State.answer_eq_afterAnswer]

/-! ### The reset and the read -/

theorem step_resetBatch {s : State} {rest : List Request} (h : s.requests = .resetBatch :: rest) :
    step s = .next ⟨s.cfg, 0, [], [], rest, s.answers⟩ := by
  rw [step_of_cons h, serve, State.resetBatch, h]
  rfl

theorem step_newBatch {s : State} {c : Cfg} {rest : List Request} (h : s.requests = .newBatch c :: rest) :
    step s = .next ⟨c, 0, [], [], rest, s.answers⟩ := by
  rw [step_of_cons h, serve, State.newBatch, h]
  rfl

theorem step_readBatch {s : State} {rest : List Request} (h : s.requests = .readBatch :: rest) :
    step s = .next (afterAnswer s (.batch s.batchOutputs)) := by
  rw [step_of_cons h, serve, State.answer_eq_afterAnswer]

theorem any_isInvalid_eq_true_iff (rs : List LineResult) : rs.any isInvalid = true ↔ .invalid ∈ rs := by
  rw [List.any_eq_true]
  constructor
  · rintro ⟨r, hr, hinv⟩
    cases r with
    | valid w => cases hinv
    | invalid => exact hr
  · exact fun h => ⟨_, h, rfl⟩

theorem anyInvalid_eq_true_iff (s : State) : s.anyInvalid = true ↔ .invalid ∈ s.results :=
  any_isInvalid_eq_true_iff s.results

end Sys2Proof.Machine

namespace Sys2Proof

theorem mem_operationRom_iff {spec : OperationSpec} : spec ∈ operationRom ↔ ∃ op, spec = specOf op := by
  rw [operationRom, List.mem_map]
  constructor
  · rintro ⟨op, -, rfl⟩
    exact ⟨op, rfl⟩
  · rintro ⟨op, rfl⟩
    exact ⟨op, by cases op <;> decide, rfl⟩

theorem lookup_eq_some_iff {cfg : Cfg} {m : Text} {spec : OperationSpec} :
    lookup cfg m = some spec ↔ spec ∈ operationRom ∧ spec.mnemonic = matchKey cfg m := by
  constructor
  · intro h
    obtain ⟨row, key⟩ := lookup_some h
    exact ⟨mem_operationRom_iff.mpr ⟨_, row⟩, key⟩
  · rintro ⟨hmem, key⟩
    obtain ⟨op, rfl⟩ := mem_operationRom_iff.mp hmem
    exact lookup_of_matchKey key.symm

end Sys2Proof

open Sys2Proof Sys2Proof.Machine

/-- Settles O9: what `LOOKUP` finds is a row, a row's mnemonic is its own key, and every opcode is a row's. -/
theorem registryLookupIsBidirectional : Obligations.RegistryLookupIsBidirectional := by
  refine ⟨fun _ _ _ => lookup_eq_some_iff, fun b => ?_, fun cfg spec hspec => ?_⟩
  · obtain ⟨op, hlook, hop⟩ := lookupByOpcode_some b
    exact ⟨specOf op, hlook, hlook, hop⟩
  · obtain ⟨op, rfl⟩ := mem_operationRom_iff.mp hspec
    exact ⟨lookup_mnemonic cfg op, lookupByOpcode_specOf op⟩

/-- Settles O35: a step serves the head of the queue, and the port runs what the decoder answers. -/
theorem stepRunsTheDecodedInstruction : Obligations.StepRunsTheDecodedInstruction :=
  fun _ _ _ _ => step_decodeWord_ok

/-- Settles O36: a step serves the head of the queue, and the port runs what the line denotes. -/
theorem stepRunsTheLinesInstruction : Obligations.StepRunsTheLinesInstruction :=
  fun _ _ _ _ => step_encodeLine_some

/-- Settles O37: a valid line's meaning emits the word that `encode` packs; the failure entry records the others. -/
theorem encodeLineIsTheSpecTransition : Obligations.EncodeLineIsTheSpecTransition :=
  fun _ _ _ => step_encodeLine

/-- Settles O38: a meaning answers the text that the decoder renders, and a failure is the pure decoder's. -/
theorem decodeWordAnswersAndWritesNothing : Obligations.DecodeWordAnswersAndWritesNothing :=
  fun _ _ _ => step_decodeWord

/-- Settles O39: the whole next state of each of the two resets. -/
theorem resetClearsTheBatch : Obligations.ResetClearsTheBatch :=
  ⟨fun _ _ => step_resetBatch, fun _ _ _ => step_newBatch⟩

/-- Settles O40: the answers are the lookups', and `LOOKUP_BY_OPCODE` is total. -/
theorem registryOperationsAnswer : Obligations.RegistryOperationsAnswer := by
  constructor
  · intro s m rest h
    exact ⟨lookup s.cfg m, step_of_cons h, fun _ => lookup_eq_some_iff⟩
  · intro s b rest h
    obtain ⟨op, hlook, -⟩ := lookupByOpcode_some b
    refine ⟨specOf op, ?_, hlook⟩
    rw [step_of_cons h, serve, hlook, State.answer_eq_afterAnswer]

/-- Settles O41: the call is served by one answer. -/
theorem directEncodeWritesNothing : Obligations.DirectEncodeWritesNothing :=
  fun _ _ _ _ _ h => step_of_cons h

/-- Settles O42: the transport texts are the results' own, entry by entry. -/
theorem readBatchShowsTheOutputs : Obligations.ReadBatchShowsTheOutputs := by
  intro s rest h
  refine ⟨s.batchOutputs, step_readBatch h, rfl, rfl, anyInvalid_eq_true_iff s, List.length_map _, fun k => ?_⟩
  have entry : s.batchOutputs.hex[k]? = s.results[k]?.map resultHex := List.getElem?_map
  exact ⟨fun w hw => by rw [entry, hw]; rfl, fun hk => by rw [entry, hk]; rfl⟩
end

section
/-! CLAIMS. What a step does to the batch (10_state.md R26 to R31; 44_diagnostics_batch.md R210, R213). Every step adds
a line, empties the batch or leaves its state alone; the invariants follow case by case. -/

namespace Sys2Proof

/-! ### The line number and the encoder's answer -/

theorem encode_fst_eq (cfg : Cfg) (line : Text) (n m : Nat) : (encode cfg line n).1 = (encode cfg line m).1 := by
  cases h : lineInstr cfg line with
  | some i => rw [(encode_of_some h n).1, (encode_of_some h m).1]
  | none => rw [(encode_of_none h n).1, (encode_of_none h m).1]

/-- After an accepted front end, the diagnostics are those of the operands. -/
theorem encode_snd_of_frontEnd_ok {cfg : Cfg} {line : Text} {n : Nat} {spec : OperationSpec} {ops : List Text}
    (hfront : frontEnd cfg line n = .ok (spec, ops)) :
    (encode cfg line n).2 = operandDiagnostics cfg n spec.schema ops := by
  by_cases hdiag : operandDiagnostics cfg n spec.schema ops = []
  · rw [encode_of_no_operandDiagnostics hfront hdiag, hdiag]
  · rw [encode_of_operandDiagnostics hfront hdiag]

theorem encode_of_frontEnd_error {cfg : Cfg} {line : Text} {n : Nat} {d : Diagnostic}
    (hfront : frontEnd cfg line n = .error d) : encode cfg line n = (.invalid, [d]) := by
  simp only [encode, hfront]

theorem encode_snd_setLine (cfg : Cfg) (line : Text) (n m : Nat) :
    (encode cfg line n).2 = (encode cfg line m).2.map fun d => { d with line := n } := by
  cases hfront : frontEnd cfg line m with
  | error d =>
    rw [encode_of_frontEnd_error (frontEnd_error hfront n).2, encode_of_frontEnd_error hfront]
    rfl
  | ok x =>
    obtain ⟨spec, ops⟩ := x
    rw [encode_snd_of_frontEnd_ok (frontEnd_ok hfront), encode_snd_of_frontEnd_ok hfront,
      operandDiagnostics_setLine cfg m n]

theorem encode_invalid_iff {cfg : Cfg} {line : Text} {n : Nat} :
    (encode cfg line n).1 = .invalid ↔ (encode cfg line n).2 ≠ [] := by
  cases h : lineInstr cfg line with
  | some i => simp [(encode_of_some h n).1]
  | none =>
    obtain ⟨invalid, hne, -⟩ := encode_of_none h n
    exact iff_of_true invalid hne

theorem line_of_mem_encode {cfg : Cfg} {line : Text} {n : Nat} {d : Diagnostic} (hd : d ∈ (encode cfg line n).2) :
    d.line = n := by
  cases h : lineInstr cfg line with
  | some i => simp [(encode_of_some h n).1] at hd
  | none => exact (encode_of_none h n).2.2 d hd

theorem decodeWord_of_encode {cfg : Cfg} {line : Text} {n : Nat} {w : Word} (h : (encode cfg line n).1 = .valid w) :
    ∃ t, decodeWord w = .ok t := by
  obtain ⟨i, hi, rfl, -⟩ := encode_valid_iff.mp (Prod.ext h rfl)
  exact ⟨_, decodeWord_of_decodeInstr (decodeInstr_encodeInstr (lineInstr_wellFormed hi))⟩

end Sys2Proof

namespace Sys2Proof.Machine

/-! ### The steps -/

/-- `t` has the configuration and the batch state of `s`. -/
def SameBatch (s t : State) : Prop :=
  t.cfg = s.cfg ∧ t.lineCtr = s.lineCtr ∧ t.diagLog = s.diagLog ∧ t.results = s.results

/-- The batch state of `t` is empty. -/
def EmptyBatch (t : State) : Prop := t.lineCtr = 0 ∧ t.diagLog = [] ∧ t.results = []

/-- What a step does to the batch: it adds the line at the head of the queue, or empties the batch, with a new
configuration only where one was set, or leaves the batch as it is. -/
theorem step_batch_cases {s t : State} (h : step s = .next t) :
    (∃ line rest, s.requests = .encodeLine line :: rest ∧
      t = afterLine s (encode s.cfg line (s.lineCtr + 1)).1 (encode s.cfg line (s.lineCtr + 1)).2) ∨
    (((∃ rest, s.requests = .resetBatch :: rest ∧ t.cfg = s.cfg) ∨ ∃ rest, s.requests = .newBatch t.cfg :: rest) ∧
      EmptyBatch t) ∨
    ((∀ line rest, s.requests ≠ .encodeLine line :: rest) ∧ SameBatch s t) := by
  rcases step_cases s with ⟨hr, hs⟩ | ⟨line, rest, r, ds, hr, -, -⟩ | ⟨r, rest, hr, hne, a, hs⟩ | ⟨rest, hr, hs⟩ |
      ⟨c, rest, hr, hs⟩ | ⟨lines, rest, hr, hs⟩ | ⟨words, rest, hr, hs⟩
  case inr.inl =>
    rw [step_encodeLine hr, Host.Outcome.next.injEq] at h
    exact .inl ⟨line, rest, hr, h.symm⟩
  all_goals
    rw [hs, Host.Outcome.next.injEq] at h
    subst h
  · exact .inr (.inr ⟨by simp [hr], rfl, rfl, rfl, rfl⟩)
  · refine .inr (.inr ⟨fun line rest' he => ?_, rfl, rfl, rfl, rfl⟩)
    rw [hr, List.cons.injEq] at he
    exact hne line he.1
  · exact .inr (.inl ⟨.inl ⟨rest, hr, rfl⟩, rfl, rfl, rfl⟩)
  · exact .inr (.inl ⟨.inr ⟨rest, hr⟩, rfl, rfl, rfl⟩)
  · exact .inr (.inr ⟨by simp [hr], rfl, rfl, rfl, rfl⟩)
  · exact .inr (.inr ⟨by simp [hr], rfl, rfl, rfl, rfl⟩)

theorem step_next (s : State) : ∃ t, step s = .next t := by
  rcases step_cases s with ⟨-, hs⟩ | ⟨_, _, _, _, -, hs, -⟩ | ⟨_, _, -, -, _, hs⟩ | ⟨_, -, hs⟩ | ⟨_, _, -, hs⟩ |
      ⟨_, _, -, hs⟩ | ⟨_, _, -, hs⟩
  all_goals exact ⟨_, hs⟩

/-! ### The batch invariant -/

theorem batchInv_of_emptyBatch {s : State} (h : EmptyBatch s) : s.BatchInv := by
  obtain ⟨hctr, hlog, hres⟩ := h
  constructor
  case count => simp [hctr, hres]
  case invalid_iff => intro k hk hle; omega
  case ordered => simp [hlog]
  case inRange => simp [hlog]
  case decodes => simp [hres]

theorem batchInv_of_sameBatch {s t : State} (hs : s.BatchInv) (h : SameBatch s t) : t.BatchInv := by
  obtain ⟨-, hctr, hlog, hres⟩ := h
  constructor
  case count => rw [hres, hctr]; exact hs.count
  case invalid_iff => rw [hres, hctr, hlog]; exact hs.invalid_iff
  case ordered => rw [hlog]; exact hs.ordered
  case inRange => rw [hlog, hctr]; exact hs.inRange
  case decodes => rw [hres]; exact hs.decodes

/-- One more line keeps the invariant if its diagnostics are its own, are there exactly when it is Invalid, and its
word decodes. -/
theorem batchInv_afterLine {s : State} (hs : s.BatchInv) {r : LineResult} {ds : List Diagnostic}
    (hline : ∀ d ∈ ds, d.line = s.lineCtr + 1) (hinvalid : r = .invalid ↔ ds ≠ [])
    (hdecodes : ∀ w, r = .valid w → ∃ t, decodeWord w = .ok t) : (afterLine s r ds).BatchInv := by
  have old : ∀ d ∈ s.diagLog, d.line ≤ s.lineCtr := fun d hd => (hs.inRange d hd).2
  constructor
  case count => simp [afterLine, hs.count]
  case invalid_iff =>
    intro k hk hle
    simp only [afterLine] at hle ⊢
    rcases Nat.lt_or_ge s.lineCtr k with hnew | hold
    · have hkey : k = s.lineCtr + 1 := by omega
      have last : (s.results ++ [r])[k - 1]? = some r := by simp [hkey, ← hs.count]
      rw [last, Option.some.injEq, hinvalid]
      constructor
      · intro hne
        obtain ⟨d, hd⟩ := List.exists_mem_of_ne_nil ds hne
        exact ⟨d, List.mem_append_right _ hd, (hline d hd).trans hkey.symm⟩
      · rintro ⟨d, hd, hdk⟩ rfl
        rw [List.append_nil] at hd
        have := old d hd
        omega
    · have before : (s.results ++ [r])[k - 1]? = s.results[k - 1]? :=
        List.getElem?_append_left (by rw [hs.count]; omega)
      rw [before, hs.invalid_iff k hk hold]
      constructor
      · rintro ⟨d, hd, hdk⟩
        exact ⟨d, List.mem_append_left _ hd, hdk⟩
      · rintro ⟨d, hd, hdk⟩
        rcases List.mem_append.mp hd with hd | hd
        · exact ⟨d, hd, hdk⟩
        · have := hline d hd
          omega
  case ordered =>
    simp only [afterLine, List.map_append]
    refine List.pairwise_append.mpr ⟨hs.ordered, ?_, ?_⟩
    · rw [List.pairwise_map]
      exact List.pairwise_of_forall_mem_list fun d hd e he => by rw [hline d hd, hline e he]
    · intro a ha b hb
      obtain ⟨d, hd, rfl⟩ := List.mem_map.mp ha
      obtain ⟨e, he, rfl⟩ := List.mem_map.mp hb
      rw [hline e he]
      exact Nat.le_succ_of_le (old d hd)
  case inRange =>
    intro d hd
    simp only [afterLine] at hd ⊢
    rcases List.mem_append.mp hd with hd | hd
    · obtain ⟨hone, hle⟩ := hs.inRange d hd
      omega
    · have := hline d hd
      omega
  case decodes =>
    intro w hw
    rcases List.mem_append.mp hw with hw | hw
    · exact hs.decodes w hw
    · exact hdecodes w (List.mem_singleton.mp hw).symm

theorem step_keeps_batchInv {s t : State} (hs : s.BatchInv) (h : step s = .next t) : t.BatchInv := by
  rcases step_batch_cases h with ⟨line, rest, -, rfl⟩ | ⟨-, empty⟩ | ⟨-, same⟩
  · exact batchInv_afterLine hs (fun _ => line_of_mem_encode) encode_invalid_iff fun _ => decodeWord_of_encode
  · exact batchInv_of_emptyBatch empty
  · exact batchInv_of_sameBatch hs same

/-- Under the invariant, an Invalid result of line `k` stands at index `k - 1`, beside a diagnostic of line `k`. -/
theorem invalid_mem_results_iff {s : State} (hs : s.BatchInv) : .invalid ∈ s.results ↔ s.diagLog ≠ [] := by
  constructor
  · intro h
    obtain ⟨k, hk, hget⟩ := List.mem_iff_getElem.mp h
    have entry : s.results[k + 1 - 1]? = some .invalid := by rw [Nat.add_sub_cancel, List.getElem?_eq_getElem hk, hget]
    have hle : k + 1 ≤ s.lineCtr := hs.count ▸ hk
    obtain ⟨d, hd, -⟩ := (hs.invalid_iff (k + 1) (Nat.le_add_left 1 k) hle).mp entry
    exact List.ne_nil_of_mem hd
  · intro h
    obtain ⟨d, hd⟩ := List.exists_mem_of_ne_nil _ h
    obtain ⟨hone, hle⟩ := hs.inRange d hd
    exact List.mem_of_getElem? ((hs.invalid_iff d.line hone hle).mpr ⟨d, hd, rfl⟩)

end Sys2Proof.Machine

open Sys2Proof Sys2Proof.Machine

/-- Settles O25: the front end and the operand stage write the number into their diagnostics' `line` alone. -/
theorem lineNumberOnlyLabelsDiagnostics : Obligations.LineNumberOnlyLabelsDiagnostics :=
  fun cfg line n m => ⟨encode_fst_eq cfg line n m, encode_snd_setLine cfg line n m⟩

/-- Settles O49: a step adds the next line with its own diagnostics, empties the batch, or leaves it as it is. -/
theorem everyStepKeepsTheBatchInvariant : Obligations.EveryStepKeepsTheBatchInvariant :=
  fun _ _ => step_keeps_batchInv

/-- Settles O50: the batch of the start-up state is empty. -/
theorem startUpHasTheBatchInvariant : Obligations.StartUpHasTheBatchInvariant :=
  ⟨batchInv_of_emptyBatch ⟨rfl, rfl, rfl⟩, rfl, rfl, rfl, rfl⟩

/-- Settles O51: by clauses (b) and (c) of the invariant. -/
theorem anyInvalidMatchesTheLog : Obligations.AnyInvalidMatchesTheLog :=
  fun s hs => (anyInvalid_eq_true_iff s).trans (invalid_mem_results_iff hs)

/-- Settles O45: each of the cases of a step answers a next state, and an empty queue is the idle one. -/
theorem everyStepCompletes : Obligations.EveryStepCompletes :=
  ⟨step_next, fun s hr => by rw [step, hr]; rfl⟩

/-- Settles O46: the only step that gives another configuration serves `newBatch`. -/
theorem cfgIsConstantWithinABatch : Obligations.CfgIsConstantWithinABatch := by
  intro s t h
  rcases step_batch_cases h with ⟨line, rest, -, rfl⟩ | ⟨⟨rest, -, hcfg⟩ | ⟨rest, hr⟩, empty⟩ | ⟨-, hcfg, -⟩
  · exact .inl rfl
  · exact .inl hcfg
  · exact .inr ⟨rest, hr, empty⟩
  · exact .inl hcfg

/-- Settles O47: outside the two resets, a step adds a line or leaves the batch as it is. -/
theorem onlyEncodeLineAppends : Obligations.OnlyEncodeLineAppends := by
  intro s t h hreset hnew
  rcases step_batch_cases h with ⟨line, rest, hr, rfl⟩ | ⟨⟨rest, hr, -⟩ | ⟨rest, hr⟩, -⟩ | ⟨hne, -, hctr, hlog, hres⟩
  · exact ⟨⟨_, rfl⟩, fun _ => ⟨rfl, _, rfl⟩, fun hne => absurd hr (hne line rest)⟩
  · exact absurd hr (hreset rest)
  · exact absurd hr (hnew _ rest)
  · refine ⟨⟨[], by rw [hlog, List.append_nil]⟩, ?_, fun _ => ⟨hctr, hres, hlog⟩⟩
    rintro ⟨line, rest, hr⟩
    exact absurd hr (hne line rest)

/-- Settles O48: both steps record the pure `encode` of the line, which depends on the batch by the line number only. -/
theorem linesAreIndependent : Obligations.LinesAreIndependent := by
  intro s s' line rest rest' hcfg hr hr'
  refine ⟨_, _, _, _, step_encodeLine hr, step_encodeLine hr', rfl, ?_, rfl, ?_⟩
  · rw [hcfg, encode_fst_eq s'.cfg line (s.lineCtr + 1) (s'.lineCtr + 1)]
    rfl
  · rw [hcfg, ← encode_snd_setLine]
    rfl
end

section
/-! CLAIMS. The batch loops (44_diagnostics_batch.md R214, R216). One step unrolls a loop into its operations; each of
them takes itself off the queue, so an induction over the lines or the words runs the loop through. -/

namespace Sys2Proof.Machine

/-- The diagnostics of `lines`, the first of which is line `n + 1`. -/
def diagnosticsFrom (cfg : Cfg) : Nat → List Text → List Diagnostic
  | _, [] => []
  | n, line :: lines => (encode cfg line (n + 1)).2 ++ diagnosticsFrom cfg (n + 1) lines

theorem diagnosticsFrom_eq_mapIdx (cfg : Cfg) (n : Nat) (lines : List Text) :
    diagnosticsFrom cfg n lines = (lines.mapIdx fun k line => (encode cfg line (n + k + 1)).2).flatten := by
  induction lines generalizing n with
  | nil => rfl
  | cons line lines ih =>
    have shift : ∀ k, n + (k + 1) + 1 = n + 1 + k + 1 := fun k => by omega
    simp only [diagnosticsFrom, ih, List.mapIdx_cons, List.flatten_cons, Nat.add_zero, shift]

theorem diagnosticsFrom_zero (cfg : Cfg) (lines : List Text) :
    diagnosticsFrom cfg 0 lines = batchDiagnostics cfg lines := by
  simp only [diagnosticsFrom_eq_mapIdx, Nat.zero_add, batchDiagnostics]

/-! ### Runs -/

theorem run_succ {s t : State} (h : step s = .next t) (k : Nat) :
    Host.Core.run core (k + 1) s = Host.Core.run core k t := by
  have hcore : core.step s = .next t := h
  simp only [Host.Core.run, hcore]

/-- `s` after the lines at the head of its queue, with `rest` left to serve. -/
def afterLines (s : State) (lines : List Text) (rest : List Request) : State where
  cfg := s.cfg
  lineCtr := s.lineCtr + lines.length
  diagLog := s.diagLog ++ diagnosticsFrom s.cfg s.lineCtr lines
  results := s.results ++ batchResults s.cfg lines
  requests := rest
  answers := s.answers ++ (batchResults s.cfg lines).map .line

theorem afterLines_cons {s : State} {line : Text} {lines : List Text} {rest : List Request} :
    afterLines (afterLine s (encode s.cfg line (s.lineCtr + 1)).1 (encode s.cfg line (s.lineCtr + 1)).2) lines rest =
      afterLines s (line :: lines) rest := by
  simp [afterLines, afterLine, diagnosticsFrom, batchResults, encode_fst_eq s.cfg line (s.lineCtr + 1) 0,
    Nat.add_assoc, Nat.add_comm 1]

theorem run_encodeLines {s : State} {lines : List Text} {rest : List Request}
    (h : s.requests = lines.map .encodeLine ++ rest) (k : Nat) :
    Host.Core.run core (lines.length + k) s = Host.Core.run core k (afterLines s lines rest) := by
  induction lines generalizing s with
  | nil =>
    have queue : s.requests = rest := h
    have same : afterLines s [] rest = s := by simp [afterLines, diagnosticsFrom, batchResults, ← queue]
    rw [same, List.length_nil, Nat.zero_add]
  | cons line lines ih =>
    rw [List.map_cons, List.cons_append] at h
    have tail : (afterLine s (encode s.cfg line (s.lineCtr + 1)).1
        (encode s.cfg line (s.lineCtr + 1)).2).requests = lines.map .encodeLine ++ rest := congrArg List.tail h
    rw [List.length_cons, Nat.add_right_comm, run_succ (step_encodeLine h), ih tail, afterLines_cons]

theorem run_decodeWords {s : State} {words : List Word} {rest : List Request}
    (h : s.requests = words.map .decodeWord ++ rest) : Host.Core.run core words.length s =
      .next ⟨s.cfg, s.lineCtr, s.diagLog, s.results, rest, s.answers ++ words.map decodeAnswer⟩ := by
  induction words generalizing s with
  | nil =>
    subst h
    simp [Host.Core.run]
  | cons w words ih =>
    rw [List.map_cons, List.cons_append] at h
    have tail : (afterAnswer s (decodeAnswer w)).requests = words.map .decodeWord ++ rest := congrArg List.tail h
    rw [List.length_cons, run_succ (step_decodeWord h), ih tail]
    simp [afterAnswer]

theorem any_isInvalid_eq_decide (rs : List LineResult) : rs.any isInvalid = decide (.invalid ∈ rs) := by
  rw [Bool.eq_iff_iff, any_isInvalid_eq_true_iff, decide_eq_true_iff]

/-- From an empty batch, the lines and then the read leave what R214 asks for. -/
theorem readBatch_afterLines {s u : State} {lines : List Text} {rest : List Request} (hcfg : u.cfg = s.cfg)
    (hempty : EmptyBatch u) (hanswers : u.answers = s.answers) (hrest : s.requests.tail = rest) :
    afterAnswer (afterLines u lines (.readBatch :: rest))
      (.batch (afterLines u lines (.readBatch :: rest)).batchOutputs) = afterBatch s lines := by
  obtain ⟨hctr, hlog, hres⟩ := hempty
  simp only [afterAnswer, afterLines, afterBatch, State.batchOutputs, State.anyInvalid, hcfg, hctr, hlog, hres,
    hanswers, hrest, diagnosticsFrom_zero, any_isInvalid_eq_decide, List.nil_append, Nat.zero_add, List.tail_cons]
  rfl

end Sys2Proof.Machine

open Sys2Proof Sys2Proof.Machine

/-- Settles O43: the unrolling, the reset, the lines one by one, and the read. -/
theorem encodeBatchProcessesEveryLine : Obligations.EncodeBatchProcessesEveryLine := by
  intro s lines rest h
  have unrolled : (s.startEncodeBatch lines).requests =
      .resetBatch :: (lines.map .encodeLine ++ .readBatch :: rest) := by
    rw [State.startEncodeBatch_requests, h, List.tail_cons]
  have tail : s.requests.tail = rest := congrArg List.tail h
  calc Host.Core.run core (lines.length + 3) s
      = Host.Core.run core (lines.length + 2) (s.startEncodeBatch lines) := run_succ (step_of_cons h) _
    _ = Host.Core.run core (lines.length + 1) _ := run_succ (step_resetBatch unrolled) _
    _ = Host.Core.run core 1 _ := run_encodeLines rfl 1
    _ = Host.Core.run core 0 _ := run_succ (step_readBatch rfl) 0
    _ = .next (afterBatch s lines) := congrArg _ (readBatch_afterLines rfl ⟨rfl, rfl, rfl⟩ rfl tail)

/-- Settles O44: the unrolling, then the words one by one. -/
theorem decodeBatchAnswersEveryWord : Obligations.DecodeBatchAnswersEveryWord := by
  intro s words rest h
  have unrolled : (s.startDecodeBatch words).requests = words.map .decodeWord ++ rest := by
    rw [State.startDecodeBatch_requests, h, List.tail_cons]
  exact (run_succ (step_of_cons h) words.length).trans (run_decodeWords unrolled)
end

section
/-! CLAIMS. Numbers in text and in fields (40_operand_types.md R101, R102, R106, R110; 43_decoder.md R195). -/

namespace Sys2Proof

/-! ### Decimals -/

theorem digits_eq_true_iff (s : Text) : digits s = true ↔ s ≠ [] ∧ ∀ c ∈ s, '0' ≤ c ∧ c ≤ '9' := by
  simp only [digits, isDigit, Bool.and_eq_true, Bool.not_eq_true', List.isEmpty_eq_false_iff, List.all_eq_true,
    decide_eq_true_iff]

theorem dec_append_singleton (s : Text) (c : Char) : dec (s ++ [c]) = 10 * dec s + (c.toNat - 48) := by
  simp only [dec, List.foldl_append, List.foldl_cons, List.foldl_nil]

theorem dec_replicate_zero_append (k : Nat) (s : Text) : dec (List.replicate k '0' ++ s) = dec s := by
  induction k with
  | zero => rfl
  | succ k ih =>
    have zero : '0'.toNat - 48 = 0 := by decide
    rw [List.replicate_succ, List.cons_append, dec_cons, zero, Nat.zero_mul, Nat.zero_add, ih]

theorem digits_replicate_zero_append (k : Nat) {s : Text} (h : digits s = true) :
    digits (List.replicate k '0' ++ s) = true := by
  obtain ⟨hne, hall⟩ := (digits_eq_true_iff s).mp h
  refine (digits_eq_true_iff _).mpr ⟨List.append_ne_nil_of_right_ne_nil _ hne, fun c hc => ?_⟩
  rcases List.mem_append.mp hc with hc | hc
  · obtain rfl := List.eq_of_mem_replicate hc
    decide
  · exact hall c hc

/-- The leading digit is written last, and it is not `0` but for the number zero. -/
theorem decimalWith_head_ne_zero {fuel n : Nat} (acc : Text) (hfuel : n < fuel) (hn : n ≠ 0) :
    (decimalWith fuel n acc).head? ≠ some '0' := by
  induction fuel generalizing n acc with
  | zero => exact absurd hfuel (Nat.not_lt_zero n)
  | succ fuel ih =>
    rw [decimalWith]
    split
    · rename_i hlt
      interval_cases n
      · exact absurd rfl hn
      all_goals simp [digitChar]
    · exact ih _ (by omega) (by omega)

/-! ### Prefixed tokens -/

theorem inRange_iff_lt {t : OperandType} {m : Nat} (h : (operandTypeRom t).domain = .range 0 m) (n : Nat) :
    inRange t n = true ↔ n < m := by
  simp [inRange, h]

/-- A token of a type with lead `ab` is `a`, `b` and digits in the type's range. -/
theorem prefixedNumber_eq_some_iff {t : OperandType} {a b : Char} (hlead : (operandTypeRom t).lead = [a, b]) {m : Nat}
    (hdom : (operandTypeRom t).domain = .range 0 m) {tok : Text} {n : Nat} :
    prefixedNumber t tok = some n ↔ ∃ ds, tok = a :: b :: ds ∧ digits ds = true ∧ dec ds < m ∧ n = dec ds := by
  rw [prefixedNumber_some, hlead, inRange_iff_lt hdom, List.isPrefixOf_iff_prefix]
  constructor
  · rintro ⟨⟨ds, rfl⟩, hdigits, hlt, rfl⟩
    exact ⟨ds, rfl, hdigits, hlt, rfl⟩
  · rintro ⟨ds, rfl, hdigits, hlt, rfl⟩
    exact ⟨⟨ds, rfl⟩, hdigits, hlt, rfl⟩

/-- R102 for any of the three prefixed types: `value` wraps its numbers, `width` is its field's. -/
theorem validate_prefixed {t : OperandType} {a b : Char} {width : Nat} {value : Nat → Value}
    (hlead : (operandTypeRom t).lead = [a, b]) (hdom : (operandTypeRom t).domain = .range 0 (2 ^ width : Nat))
    (hvalue : ∀ cfg tok, operandValue cfg t tok = (prefixedNumber t tok).map value)
    (hbits : ∀ n, fieldBits (value n) = bin width n) (cfg : Cfg) (tok : Text) :
    (∀ bits : Bits, validate cfg t tok = .ok bits ↔ ∃ ds : Text, tok = [a, b] ++ ds ∧ ds ≠ [] ∧
      (∀ c ∈ ds, '0' ≤ c ∧ c ≤ '9') ∧ dec ds < 2 ^ width ∧ bits = bin width (dec ds)) ∧
    ((∀ bits : Bits, validate cfg t tok ≠ .ok bits) → validate cfg t tok = .error (reasonOf t)) := by
  refine ⟨fun bits => ?_, fun hno => (validate_outcome cfg t tok).resolve_left fun ⟨bits, hb, _⟩ => hno bits hb⟩
  simp only [validate_ok_iff, hvalue, Option.map_eq_some_iff, prefixedNumber_eq_some_iff hlead hdom]
  constructor
  · rintro ⟨_, ⟨_, ⟨ds, rfl, hdigits, hlt, rfl⟩, rfl⟩, rfl⟩
    obtain ⟨hne, hall⟩ := (digits_eq_true_iff ds).mp hdigits
    exact ⟨ds, rfl, hne, hall, hlt, hbits _⟩
  · rintro ⟨ds, rfl, hne, hall, hlt, rfl⟩
    exact ⟨_, ⟨_, ⟨ds, rfl, (digits_eq_true_iff ds).mpr ⟨hne, hall⟩, hlt, rfl⟩, rfl⟩, (hbits _).symm⟩

/-! ### Immediate tokens -/

/-- `tok` is the digits `ds` after at most one sign, and `v` is the integer it writes (R106). -/
def SignedDigits (tok ds : Text) (v : Int) : Prop :=
  (tok = ds ∧ v = dec ds) ∨ (tok = '+' :: ds ∧ v = dec ds) ∨ (tok = '-' :: ds ∧ v = -(dec ds : Int))

theorem signedDecimal_eq_some_iff {tok : Text} {v : Int} :
    signedDecimal tok = some v ↔ ∃ ds, digits ds = true ∧ SignedDigits tok ds v := by
  constructor
  · intro h
    cases tok with
    | nil => cases h
    | cons c rest =>
      simp only [signedDecimal, Bool.and_eq_true, Bool.or_eq_true, beq_iff_eq] at h
      split at h
      · rename_i hsign
        obtain ⟨rfl | rfl, hdigits⟩ := hsign
        · exact ⟨rest, hdigits, .inr (.inl ⟨rfl, by simpa [eq_comm] using h⟩)⟩
        · exact ⟨rest, hdigits, .inr (.inr ⟨rfl, by simpa [eq_comm] using h⟩)⟩
      · split at h
        · rename_i hdigits
          exact ⟨_, hdigits, .inl ⟨rfl, by simpa [eq_comm] using h⟩⟩
        · cases h
  · rintro ⟨ds, hdigits, ⟨rfl, rfl⟩ | ⟨rfl, rfl⟩ | ⟨rfl, rfl⟩⟩
    · exact signedDecimal_digits hdigits
    · simp [signedDecimal, hdigits]
    · simp [signedDecimal, hdigits]

theorem immediateNumber_eq_some_iff {tok : Text} {v : Int} :
    immediateNumber tok = some v ↔ signedDecimal tok = some v ∧ -32768 ≤ v ∧ v < 32768 := by
  simp [immediateNumber, Option.filter_eq_some_iff, inRange, operandTypeRom]

theorem fieldBits_imm (v : Int) : fieldBits (.imm v) = bin 16 (v % 65536).toNat := rfl

end Sys2Proof

open Sys2Proof Sys2Proof.Machine

/-- Settles O10: `dec` folds the digits from the left, so leading zeros add nothing; the digits of a number are its
rendered decimal. -/
theorem decimalLiteralsReadInBaseTen : Obligations.DecimalLiteralsReadInBaseTen := by
  refine ⟨digits_eq_true_iff, fun n k => ?_, dec_append_singleton, by decide, by decide⟩
  rw [← decimal_eq_toDigits]
  exact ⟨digits_replicate_zero_append k (digits_decimal n), by rw [dec_replicate_zero_append, dec_decimal]⟩

/-- Settles O11: the three types differ in lead, width and value constructor only. -/
theorem prefixedOperandsValidate : Obligations.PrefixedOperandsValidate := by
  intro cfg tok row hrow
  simp only [List.mem_cons, List.not_mem_nil, or_false] at hrow
  rcases hrow with rfl | rfl | rfl
  · exact validate_prefixed (value := .reg) rfl rfl (fun _ _ => rfl) (fun _ => rfl) cfg tok
  · exact validate_prefixed (value := .ram) rfl rfl (fun _ _ => rfl) (fun _ => rfl) cfg tok
  · exact validate_prefixed (value := .line) rfl rfl (fun _ _ => rfl) (fun _ => rfl) cfg tok

/-- Settles O12: the grammar is that of `signedDecimal`, the range that of the type. -/
theorem immediateOperandsValidate : Obligations.ImmediateOperandsValidate := by
  intro cfg tok
  refine ⟨fun b => ?_, fun hno => (validate_outcome cfg .immediate tok).resolve_left fun ⟨b, hb, _⟩ => hno b hb⟩
  simp only [validate_ok_iff, operandValue, Option.map_eq_some_iff, immediateNumber_eq_some_iff,
    signedDecimal_eq_some_iff, digits_eq_true_iff]
  constructor
  · rintro ⟨_, ⟨v, ⟨⟨ds, ⟨hne, hall⟩, hsigned⟩, hlow, hhigh⟩, rfl⟩, rfl⟩
    exact ⟨ds, v, hne, hall, hsigned, hlow, hhigh, fieldBits_imm v⟩
  · rintro ⟨ds, v, hne, hall, hsigned, hlow, hhigh, rfl⟩
    exact ⟨_, ⟨v, ⟨⟨ds, ⟨hne, hall⟩, hsigned⟩, hlow, hhigh⟩, rfl⟩, (fieldBits_imm v).symm⟩

/-- Settles O15: `bin` and `uint` are inverse at each length, as are the residue and `sint` at width 16. -/
theorem operandConversionsAreBijective : Obligations.OperandConversionsAreBijective := by
  refine ⟨fun N v h => ⟨length_bin N v, uint_bin_of_lt h⟩, fun b => ⟨uint_lt b, bin_uint b⟩, fun v hlow hhigh => ?_,
    fun u h => ?_⟩
  · have residue : (v % 65536).toNat < 2 ^ 16 := by omega
    rw [uint_bin_of_lt residue, sint_emod ⟨hlow, hhigh⟩]
  · obtain ⟨hlow, hhigh⟩ := sint_range h
    exact ⟨hlow, hhigh, sint_emod_toNat h⟩

/-- Settles O16: the model's digits are `Nat.toDigits`, and the first one is not `0`. -/
theorem renderedNumbersAreBaseTen : Obligations.RenderedNumbersAreBaseTen :=
  fun n => ⟨decimal_eq_toDigits n, dec_decimal n, decimalWith_head_ne_zero [] n.lt_succ_self⟩
end

section
/-! CLAIMS. The encoder's steps and their diagnostics (42_encoder.md R162 to R167; 60_exceptions.md R232). -/

namespace Sys2Proof

/-! ### Tokens and comments -/

theorem defaultCfg_isWs_iff (c : Char) : defaultCfg.isWs c = true ↔ c.toNat ∈ [0x9, 0xA, 0xB, 0xC, 0xD, 0x20] := by
  have codes : defaultCfg.whitespace.map Char.toNat = [0x9, 0xA, 0xB, 0xC, 0xD, 0x20] := by decide
  have injective : Function.Injective Char.toNat := fun _ _ => Char.toNat_inj.mp
  rw [Cfg.isWs, List.contains_iff_mem, ← codes, List.mem_map_of_injective injective]

theorem tokens_eq_nil {ws : Char → Bool} {line : Text} (h : ∀ c ∈ line, ws c = true) : tokens ws line = [] := by
  induction line with
  | nil => rfl
  | cons c line ih =>
    rw [List.forall_mem_cons] at h
    rw [tokens_space h.1, ih h.2]

theorem lineTokens_of_no_marker {cfg : Cfg} (h : cfg.commentMarker = none) (line : Text) :
    lineTokens cfg line = tokens cfg.isWs line := by
  rw [lineTokens, h, stripComment]

theorem lineTokens_of_marker {cfg : Cfg} {c : Char} (h : cfg.commentMarker = some c) (line : Text) :
    lineTokens cfg line = (tokens cfg.isWs line).takeWhile fun t => t.head? != some c := by
  rw [lineTokens, h, stripComment]

theorem lineTokens_eq_nil {cfg : Cfg} {line : Text} (h : ∀ c ∈ line, cfg.isWs c = true) : lineTokens cfg line = [] := by
  rw [lineTokens, tokens_eq_nil h]
  cases cfg.commentMarker with
  | none => rfl
  | some c => rfl

/-! ### The steps before the operands -/

theorem encode_of_no_token {cfg : Cfg} {line : Text} (h : lineTokens cfg line = []) (n : Nat) :
    encode cfg line n = (.invalid, [⟨n, [], .missingOperation, none, none⟩]) :=
  encode_of_frontEnd_error (by simp only [frontEnd, h])

theorem encode_of_unknown {cfg : Cfg} {line m : Text} {ops : List Text} (htok : lineTokens cfg line = m :: ops)
    (hlook : lookup cfg m = none) (n : Nat) :
    encode cfg line n = (.invalid, [⟨n, m, .unknownOperation, none, none⟩]) :=
  encode_of_frontEnd_error (by simp only [frontEnd, htok, hlook])

theorem encode_of_arity {cfg : Cfg} {line m : Text} {ops : List Text} {spec : OperationSpec}
    (htok : lineTokens cfg line = m :: ops) (hlook : lookup cfg m = some spec)
    (harity : ops.length ≠ spec.schema.length) (n : Nat) :
    encode cfg line n = (.invalid, [⟨n, m, .arityMismatch, some spec.schema.length, some ops.length⟩]) :=
  encode_of_frontEnd_error (by simp only [frontEnd, htok, hlook, if_neg harity])

theorem lookup_eq_none {cfg : Cfg} {m : Text} (h : ∀ op, (specOf op).mnemonic ≠ matchKey cfg m) :
    lookup cfg m = none := by
  refine Option.eq_none_iff_forall_ne_some.mpr fun spec hspec => ?_
  obtain ⟨row, key⟩ := lookup_some hspec
  rw [row] at key
  exact h _ key

/-! ### The operands -/

/-- The diagnostic of one operand, if it fails (R167). -/
def operandFailure (cfg : Cfg) (n : Nat) (p : OperandType × Text) : Option Diagnostic :=
  match validate cfg p.1 p.2 with
  | .ok _ => none
  | .error r => some ⟨n, p.2, r, none, none⟩

theorem operandDiagnostics_eq_filterMap (cfg : Cfg) (n : Nat) (ts : List OperandType) (toks : List Text) :
    operandDiagnostics cfg n ts toks = (ts.zip toks).filterMap (operandFailure cfg n) := by
  induction ts generalizing toks with
  | nil => rfl
  | cons t ts ih =>
    cases toks with
    | nil => rfl
    | cons tok toks =>
      rw [operandDiagnostics, List.zip_cons_cons, List.filterMap_cons, operandFailure, ih]
      cases validate cfg t tok <;> rfl

/-- An operand fails with its type's own reason. -/
theorem reason_of_mem_operandDiagnostics {cfg : Cfg} {n : Nat} {ts : List OperandType} {toks : List Text}
    {d : Diagnostic} (hd : d ∈ operandDiagnostics cfg n ts toks) : ∃ t, d.reason = reasonOf t := by
  rw [operandDiagnostics_eq_filterMap, List.mem_filterMap] at hd
  obtain ⟨⟨t, tok⟩, -, hfail⟩ := hd
  rcases validate_outcome cfg t tok with ⟨b, hb, -⟩ | herror
  · simp [operandFailure, hb] at hfail
  · simp only [operandFailure, herror, Option.some.injEq] at hfail
    exact ⟨t, by rw [← hfail]⟩

theorem schema_length_le (op : Op) : (specOf op).schema.length ≤ 4 := by cases op <;> decide

theorem length_encode_snd_le (cfg : Cfg) (line : Text) (n : Nat) : (encode cfg line n).2.length ≤ 4 := by
  cases hfront : frontEnd cfg line n with
  | error d =>
    rw [encode_of_frontEnd_error hfront]
    exact Nat.succ_le_succ (Nat.zero_le 3)
  | ok x =>
    obtain ⟨spec, ops⟩ := x
    have room : spec.schema.length ≤ 4 := by
      rw [(frontEnd_ok_spec hfront).1]
      exact schema_length_le spec.op
    rw [encode_snd_of_frontEnd_ok hfront]
    exact (operandDiagnostics_length cfg n spec.schema ops).trans room

end Sys2Proof

namespace Sys2Proof.Machine

theorem isLineReason_of_frontEnd {cfg : Cfg} {line : Text} {n : Nat} {d : Diagnostic}
    (h : frontEnd cfg line n = .error d) : isLineReason d.reason = true := by
  unfold frontEnd at h
  split at h
  · cases h; rfl
  · split at h
    · cases h; rfl
    · split at h
      · cases h
      · cases h; rfl

theorem isLineReason_reasonOf (t : OperandType) : isLineReason (reasonOf t) = false := by
  cases t <;> rfl

end Sys2Proof.Machine

open Sys2Proof Sys2Proof.Machine

/-- Settles O17: a run that ends before whitespace, or with the line, is one token, and only whitespace is lost. -/
theorem tokensAreMaximalRuns : Obligations.TokensAreMaximalRuns := by
  refine ⟨fun _ _ _ => tokens_mem, tokens_flatten, fun ws t rest c hne ht hc => ⟨?_, ?_, tokens_space hc rest⟩,
    defaultCfg_isWs_iff⟩
  · have before : ∀ d ∈ (c :: rest).head?, ws d = true := by simpa using hc
    rw [tokens_word t (c :: rest) hne ht before, tokens_space hc]
  · have alone := tokens_word t [] hne ht (by simp)
    rwa [List.append_nil] at alone

/-- Settles O18: the cut is what `dropWhile` leaves; a whitespace marker begins no token. -/
theorem commentsAreCutAtTheirToken : Obligations.CommentsAreCutAtTheirToken := by
  refine ⟨fun _ line h => lineTokens_of_no_marker h line, fun cfg line c h => ?_, fun cfg line c h hws => ?_⟩
  · rw [lineTokens_of_marker h]
    refine ⟨_, (List.takeWhile_append_dropWhile).symm, fun t ht => ?_, fun t ht => ?_⟩
    · simpa using List.mem_takeWhile_imp ht
    · have stops := List.head?_dropWhile_not (fun t => t.head? != some c) (tokens cfg.isWs line)
      rw [Option.mem_def.mp ht] at stops
      simpa using stops
  · rw [lineTokens_of_marker h, List.takeWhile_eq_self_iff]
    intro t ht
    rw [bne_iff_ne]
    intro hhead
    have nonWs := (tokens_mem ht).2 c (List.mem_of_head? hhead)
    simp [hws] at nonWs

/-- Settles O19: the front end stops at the missing token or at the mnemonic that no row has. -/
theorem missingAndUnknownOperations : Obligations.MissingAndUnknownOperations :=
  ⟨fun _ _ n h => encode_of_no_token h n, fun _ _ n h => encode_of_no_token (lineTokens_eq_nil h) n,
    fun _ _ n _ _ htok hunknown => encode_of_unknown htok (lookup_eq_none hunknown) n⟩

/-- Settles O20: the front end stops at the arity, before any operand. -/
theorem arityMismatchIsOneDiagnostic : Obligations.ArityMismatchIsOneDiagnostic :=
  fun _ _ n _ _ _ htok hlook harity => encode_of_arity htok hlook harity n

/-- Settles O21: the operand diagnostics are the failures of the positions, in order. -/
theorem everyFailingOperandIsReported : Obligations.EveryFailingOperandIsReported := by
  intro cfg line n m ops spec htok hlook harity
  have diagnostics := encode_snd_of_frontEnd_ok (frontEnd_eq_ok htok hlook harity n)
  constructor
  · rw [diagnostics, operandDiagnostics_eq_filterMap]
    rfl
  · rw [encode_invalid_iff, diagnostics, ne_eq, operandDiagnostics_eq_nil_iff]
    push Not
    rfl

/-- Settles O23: the front end's one diagnostic ends the line, and an operand fails with its type's reason. -/
theorem diagnosticsAreNeverMixed : Obligations.DiagnosticsAreNeverMixed := by
  intro cfg line n
  cases hfront : frontEnd cfg line n with
  | error d => exact .inl ⟨d, by rw [encode_of_frontEnd_error hfront], isLineReason_of_frontEnd hfront⟩
  | ok x =>
    refine .inr fun d hd => ?_
    rw [encode_snd_of_frontEnd_ok hfront] at hd
    obtain ⟨t, ht⟩ := reason_of_mem_operandDiagnostics hd
    rw [ht, isLineReason_reasonOf]

/-- Settles O24: no schema has more than four operands. -/
theorem diagnosticsPerLineAreBounded : Obligations.DiagnosticsPerLineAreBounded := by
  refine fun cfg line n => ⟨fun hvalid => ?_, fun hinvalid => ⟨?_, length_encode_snd_le cfg line n⟩,
    fun _ => line_of_mem_encode⟩
  · exact not_not.mp fun hne => hvalid (encode_invalid_iff.mpr hne)
  · exact List.length_pos_iff.mpr (encode_invalid_iff.mp hinvalid)
end
